-- ==== Sys2Proof/Word.lean ====
section
/-! DEFINITION. The widths of the machine (spec/00_scope.md R2, R6, R11): words, bytes, instruction fields, register
numbers. Plain abbreviations, so that the lemmas of `BitVec` and `Fin` apply. -/

namespace Sys2Proof

/-- A general register, a memory byte, a timer, an immediate `nn`: 8 bits (R2, R6 `XLEN`). -/
abbrev Byte := BitVec 8

/-- `I`, `PC`, a stack entry, an opcode: 16 bits (R2, R6 `ALEN`). -/
abbrev Word := BitVec 16

/-- The immediate `nnn = op[11:0]` (R11). -/
abbrev Imm12 := BitVec 12

/-- A register number `x = op[11:8]` or `y = op[7:4]`: V0 to VF (R11, spec/10_state.md R20). -/
abbrev Reg := Fin 16

/-- The sprite height `n = op[3:0]`, a byte count 0..15 (R11, spec/30_encoding.md R82). -/
abbrev Height := Fin 16

/-- A key index 0x0..0xF (spec/10_state.md R31, R45). -/
abbrev Key := Fin 16

/-- VF, the register that doubles as the flag (spec/10_state.md R22). -/
abbrev Reg.vf : Reg := 15

end Sys2Proof
end

