-- ==== Sys2Proof/Config.lean ====
section
/-! DEFINITION. The fixed parameters of the machine (spec/00_scope.md R6) and its one free value. The parameter `FONT`
(R7) stands in Machine/Font.lean. -/

namespace Sys2Proof.Config

/-- `MEM_SIZE`: addresses 0x000..0xFFF (R6). -/
@[simp] abbrev memSize : Nat := 4096

/-- `FONT_BASE`: the first byte of the font table (R6). -/
@[simp] abbrev fontBase : Nat := 0x050

/-- `FONT_LEN`: 16 glyphs of 5 bytes (R6). -/
@[simp] abbrev fontLen : Nat := 80

/-- `PROG_BASE`: where `load` puts the image and where `PC` resets to (R6). -/
@[simp] abbrev progBase : Nat := 0x200

/-- `MAX_IMAGE`: the longest image `load` takes, 4096 - 0x200 bytes (R6, spec/70_reset_and_hazards.md R263). -/
@[simp] abbrev maxImage : Nat := 3584

/-- The random byte that the k-th `Cxnn` reads when no host byte stands in `State.rndIn`: a FREE VALUE, under no law
(spec/43_register_alu.md R170, spec/10_state.md R43, spec/93_implementation_defined.md U5). DESIGN CHOICE, log entry 3
(safe): no body, so nothing can be proved of its value, and every claim holds for every sequence of bytes. -/
opaque rndByte : Nat → Byte

end Sys2Proof.Config
end

