-- ==== Sys2Proof/Syntax.lean ====
section
/-! DEFINITION. The instruction set: one constructor per row of spec/opcode_table.json, in the table's order
(spec/30_encoding.md R86), each with the fields of its row (R81, R82). -/

namespace Sys2Proof

/-- The 34 instructions (R3, R86). `x`, `y` are register numbers, `nn`, `nnn`, `n` the immediates of R82. The shifts
keep the field `y` they ignore (spec/43_register_alu.md R159, R161), so that no bit of an encoding is lost. -/
inductive Instr where
  /-- `00E0` CLS: clear the display (R120). -/
  | cls
  /-- `00EE` RET: return from subroutine (R131). -/
  | ret
  /-- `1nnn` JP nnn (R132). -/
  | jp (nnn : Imm12)
  /-- `2nnn` CALL nnn (R133). -/
  | call (nnn : Imm12)
  /-- `3xnn` SE Vx, nn (R134). -/
  | seImm (x : Reg) (nn : Byte)
  /-- `4xnn` SNE Vx, nn (R135). -/
  | sneImm (x : Reg) (nn : Byte)
  /-- `5xy0` SE Vx, Vy (R136). -/
  | seReg (x y : Reg)
  /-- `6xnn` LD Vx, nn (R151). -/
  | ldImm (x : Reg) (nn : Byte)
  /-- `7xnn` ADD Vx, nn (R152). -/
  | addImm (x : Reg) (nn : Byte)
  /-- `8xy0` LD Vx, Vy (R153). -/
  | ldReg (x y : Reg)
  /-- `8xy1` OR Vx, Vy (R154). -/
  | orReg (x y : Reg)
  /-- `8xy2` AND Vx, Vy (R155). -/
  | andReg (x y : Reg)
  /-- `8xy3` XOR Vx, Vy (R156). -/
  | xorReg (x y : Reg)
  /-- `8xy4` ADD Vx, Vy (R157). -/
  | addReg (x y : Reg)
  /-- `8xy5` SUB Vx, Vy (R158). -/
  | subReg (x y : Reg)
  /-- `8xy6` SHR Vx; `y` is decoded but ignored (R159). -/
  | shr (x y : Reg)
  /-- `8xy7` SUBN Vx, Vy (R160). -/
  | subn (x y : Reg)
  /-- `8xyE` SHL Vx; `y` is decoded but ignored (R161). -/
  | shl (x y : Reg)
  /-- `9xy0` SNE Vx, Vy (R137). -/
  | sneReg (x y : Reg)
  /-- `Annn` LD I, nnn (R180). -/
  | ldI (nnn : Imm12)
  /-- `Bnnn` JP V0, nnn (R138). -/
  | jpV0 (nnn : Imm12)
  /-- `Cxnn` RND Vx, nn (R170). -/
  | rnd (x : Reg) (nn : Byte)
  /-- `Dxyn` DRW Vx, Vy, n (R121). -/
  | drw (x y : Reg) (n : Height)
  /-- `Ex9E` SKP Vx (R200). -/
  | skp (x : Reg)
  /-- `ExA1` SKNP Vx (R201). -/
  | sknp (x : Reg)
  /-- `Fx07` LD Vx, DT (R202). -/
  | ldVxDT (x : Reg)
  /-- `Fx0A` LD Vx, K: wait for a key (R203). -/
  | ldVxK (x : Reg)
  /-- `Fx15` LD DT, Vx (R204). -/
  | ldDT (x : Reg)
  /-- `Fx18` LD ST, Vx (R205). -/
  | ldST (x : Reg)
  /-- `Fx1E` ADD I, Vx (R181). -/
  | addI (x : Reg)
  /-- `Fx29` LD F, Vx: font address (R182). -/
  | ldF (x : Reg)
  /-- `Fx33` LD B, Vx: store the decimal digits (R183). -/
  | ldB (x : Reg)
  /-- `Fx55` LD [I], Vx: store V0..Vx (R184). -/
  | stRegs (x : Reg)
  /-- `Fx65` LD Vx, [I]: load V0..Vx (R185). -/
  | ldRegs (x : Reg)
  deriving DecidableEq, Repr

end Sys2Proof
end

