-- ==== Sys2Proof/WellFormed.lean ====
section
/-! DEFINITION. What makes a raw field value, an instruction and a program image well formed (spec/30_encoding.md R82,
spec/70_reset_and_hazards.md R262, R263). The field types of `Instr` are exact, so the checks on a field can only fail on
a raw number that no `Instr` holds; `Instr.wellFormed` still names them, row by row. -/

namespace Sys2Proof

/-- A register number or a sprite height fits 4 bits (R82). -/
def nibbleOk (k : Nat) : Bool := decide (k < 16)

/-- An immediate `nn` fits 8 bits (R82). -/
def nnOk (k : Nat) : Bool := decide (k < 256)

/-- An immediate `nnn` fits 12 bits (R82). -/
def nnnOk (k : Nat) : Bool := decide (k < 4096)

/-- A program image that `load` takes (R262, R263). -/
def imageOk (img : List Byte) : Bool := decide (img.length ≤ Config.maxImage)

/-- Every field of the instruction is in the range its format gives it (R81, R82). -/
def Instr.wellFormed : Instr → Bool
  | .cls => true
  | .ret => true
  | .jp nnn => nnnOk nnn.toNat
  | .call nnn => nnnOk nnn.toNat
  | .seImm x nn => nibbleOk x.val && nnOk nn.toNat
  | .sneImm x nn => nibbleOk x.val && nnOk nn.toNat
  | .seReg x y => nibbleOk x.val && nibbleOk y.val
  | .ldImm x nn => nibbleOk x.val && nnOk nn.toNat
  | .addImm x nn => nibbleOk x.val && nnOk nn.toNat
  | .ldReg x y => nibbleOk x.val && nibbleOk y.val
  | .orReg x y => nibbleOk x.val && nibbleOk y.val
  | .andReg x y => nibbleOk x.val && nibbleOk y.val
  | .xorReg x y => nibbleOk x.val && nibbleOk y.val
  | .addReg x y => nibbleOk x.val && nibbleOk y.val
  | .subReg x y => nibbleOk x.val && nibbleOk y.val
  | .shr x y => nibbleOk x.val && nibbleOk y.val
  | .subn x y => nibbleOk x.val && nibbleOk y.val
  | .shl x y => nibbleOk x.val && nibbleOk y.val
  | .sneReg x y => nibbleOk x.val && nibbleOk y.val
  | .ldI nnn => nnnOk nnn.toNat
  | .jpV0 nnn => nnnOk nnn.toNat
  | .rnd x nn => nibbleOk x.val && nnOk nn.toNat
  | .drw x y n => nibbleOk x.val && nibbleOk y.val && nibbleOk n.val
  | .skp x => nibbleOk x.val
  | .sknp x => nibbleOk x.val
  | .ldVxDT x => nibbleOk x.val
  | .ldVxK x => nibbleOk x.val
  | .ldDT x => nibbleOk x.val
  | .ldST x => nibbleOk x.val
  | .addI x => nibbleOk x.val
  | .ldF x => nibbleOk x.val
  | .ldB x => nibbleOk x.val
  | .stRegs x => nibbleOk x.val
  | .ldRegs x => nibbleOk x.val

end Sys2Proof
end

