-- ==== Sys2Proof/Decode.lean ====
section
/-! DEFINITION. Decoding and encoding (spec/30_encoding.md): the fields of an opcode (spec/00_scope.md R11), the class
and sub-function maps (R84, R85), the mask and match table (R86), the encoder, and the word layout in memory
(spec/20_memory.md R65). Decoding is total and rejects by name. -/

namespace Sys2Proof

/-- Why a word or a byte sequence is no instruction. -/
inductive DecodeError where
  /-- The word matches no row of R86: an unknown opcode (R88), executed as a no-operation
  (spec/40_step_cycle.md R104), so this rejection stops nothing. -/
  | unknownOpcode (op : Word)
  /-- Fewer than the two bytes an instruction has (R80); no step meets it, since fetch reads two bytes or faults. -/
  | truncated
  deriving DecidableEq, Repr

/-! ## Fields (R11, R82) -/

/-- `cls = op[15:12]`. -/
def fieldCls (op : Word) : BitVec 4 := op.extractLsb' 12 4

/-- `x = op[11:8]`. -/
def fieldX (op : Word) : Reg := (op.extractLsb' 8 4).toFin

/-- `y = op[7:4]`. -/
def fieldY (op : Word) : Reg := (op.extractLsb' 4 4).toFin

/-- `n = op[3:0]`. -/
def fieldN (op : Word) : Height := (op.extractLsb' 0 4).toFin

/-- `nn = op[7:0]`. -/
def fieldNN (op : Word) : Byte := op.extractLsb' 0 8

/-- `nnn = op[11:0]`. -/
def fieldNNN (op : Word) : Imm12 := op.extractLsb' 0 12

/-! ## Decoding (R83 to R85) -/

/-- Class 0x0: the whole word is fixed (R84). -/
def decodeFixed (op : Word) : Option Instr :=
  match op.toNat with
  | 0x00E0 => some .cls
  | 0x00EE => some .ret
  | _ => none

/-- Class 0x8, by `op[3:0]` (R85). -/
def decodeAlu (op : Word) : Option Instr :=
  match (op.extractLsb' 0 4).toNat with
  | 0x0 => some (.ldReg (fieldX op) (fieldY op))
  | 0x1 => some (.orReg (fieldX op) (fieldY op))
  | 0x2 => some (.andReg (fieldX op) (fieldY op))
  | 0x3 => some (.xorReg (fieldX op) (fieldY op))
  | 0x4 => some (.addReg (fieldX op) (fieldY op))
  | 0x5 => some (.subReg (fieldX op) (fieldY op))
  | 0x6 => some (.shr (fieldX op) (fieldY op))
  | 0x7 => some (.subn (fieldX op) (fieldY op))
  | 0xE => some (.shl (fieldX op) (fieldY op))
  | _ => none

/-- Class 0xE, by `op[7:0]` (R85). -/
def decodeKeys (op : Word) : Option Instr :=
  match (fieldNN op).toNat with
  | 0x9E => some (.skp (fieldX op))
  | 0xA1 => some (.sknp (fieldX op))
  | _ => none

/-- Class 0xF, by `op[7:0]` (R85). -/
def decodeMisc (op : Word) : Option Instr :=
  match (fieldNN op).toNat with
  | 0x07 => some (.ldVxDT (fieldX op))
  | 0x0A => some (.ldVxK (fieldX op))
  | 0x15 => some (.ldDT (fieldX op))
  | 0x18 => some (.ldST (fieldX op))
  | 0x1E => some (.addI (fieldX op))
  | 0x29 => some (.ldF (fieldX op))
  | 0x33 => some (.ldB (fieldX op))
  | 0x55 => some (.stRegs (fieldX op))
  | 0x65 => some (.ldRegs (fieldX op))
  | _ => none

/-- Classes 0x5 and 0x9 need `op[3:0] = 0` (R84). -/
def decodeIfLowZero (op : Word) (i : Instr) : Option Instr :=
  if op.extractLsb' 0 4 = 0#4 then some i else none

/-- The instruction of an opcode by the class map R84, every fixed bit of the pattern required
(R83; the spec's decision D2: UNVERIFIED, log entry 6, unsafe). -/
def decodeOption (op : Word) : Option Instr :=
  match (fieldCls op).toNat with
  | 0x0 => decodeFixed op
  | 0x1 => some (.jp (fieldNNN op))
  | 0x2 => some (.call (fieldNNN op))
  | 0x3 => some (.seImm (fieldX op) (fieldNN op))
  | 0x4 => some (.sneImm (fieldX op) (fieldNN op))
  | 0x5 => decodeIfLowZero op (.seReg (fieldX op) (fieldY op))
  | 0x6 => some (.ldImm (fieldX op) (fieldNN op))
  | 0x7 => some (.addImm (fieldX op) (fieldNN op))
  | 0x8 => decodeAlu op
  | 0x9 => decodeIfLowZero op (.sneReg (fieldX op) (fieldY op))
  | 0xA => some (.ldI (fieldNNN op))
  | 0xB => some (.jpV0 (fieldNNN op))
  | 0xC => some (.rnd (fieldX op) (fieldNN op))
  | 0xD => some (.drw (fieldX op) (fieldY op) (fieldN op))
  | 0xE => decodeKeys op
  | _ => decodeMisc op -- the one class left is 0xF

/-- Decode one opcode, or reject it by name (R83, R88). -/
def decodeWord (op : Word) : Except DecodeError Instr :=
  match decodeOption op with
  | some i => .ok i
  | none => .error (.unknownOpcode op)

/-- The opcode of two bytes in memory order: the first is the high byte (spec/20_memory.md R65). -/
def wordOfBytes (hi lo : Byte) : Word := hi ++ lo

/-- Decode the instruction at the front of a byte sequence, with the rest of it (R80: always two bytes). -/
def decode : List Byte → Except DecodeError (Instr × List Byte)
  | hi :: lo :: rest =>
    match decodeWord (wordOfBytes hi lo) with
    | .ok i => .ok (i, rest)
    | .error e => .error e
  | _ => .error .truncated

/-! ## Encoding (R81, R86) -/

/-- A 4-bit field of an encoding. -/
def regBits (x : Fin 16) : BitVec 4 := BitVec.ofFin x

/-- Format `NNN` of R81. -/
def packNNN (cls : BitVec 4) (nnn : Imm12) : Word := cls ++ nnn

/-- Formats `XNN` and `X` of R81. -/
def packXNN (cls : BitVec 4) (x : Reg) (nn : Byte) : Word := cls ++ regBits x ++ nn

/-- Formats `XY` and `XYN` of R81. -/
def packXYN (cls : BitVec 4) (x y : Reg) (n : BitVec 4) : Word := cls ++ regBits x ++ regBits y ++ n

/-- The opcode of an instruction (R86). -/
def encode : Instr → Word
  | .cls => 0x00E0#16
  | .ret => 0x00EE#16
  | .jp nnn => packNNN 0x1#4 nnn
  | .call nnn => packNNN 0x2#4 nnn
  | .seImm x nn => packXNN 0x3#4 x nn
  | .sneImm x nn => packXNN 0x4#4 x nn
  | .seReg x y => packXYN 0x5#4 x y 0x0#4
  | .ldImm x nn => packXNN 0x6#4 x nn
  | .addImm x nn => packXNN 0x7#4 x nn
  | .ldReg x y => packXYN 0x8#4 x y 0x0#4
  | .orReg x y => packXYN 0x8#4 x y 0x1#4
  | .andReg x y => packXYN 0x8#4 x y 0x2#4
  | .xorReg x y => packXYN 0x8#4 x y 0x3#4
  | .addReg x y => packXYN 0x8#4 x y 0x4#4
  | .subReg x y => packXYN 0x8#4 x y 0x5#4
  | .shr x y => packXYN 0x8#4 x y 0x6#4
  | .subn x y => packXYN 0x8#4 x y 0x7#4
  | .shl x y => packXYN 0x8#4 x y 0xE#4
  | .sneReg x y => packXYN 0x9#4 x y 0x0#4
  | .ldI nnn => packNNN 0xA#4 nnn
  | .jpV0 nnn => packNNN 0xB#4 nnn
  | .rnd x nn => packXNN 0xC#4 x nn
  | .drw x y n => packXYN 0xD#4 x y (regBits n)
  | .skp x => packXNN 0xE#4 x 0x9E#8
  | .sknp x => packXNN 0xE#4 x 0xA1#8
  | .ldVxDT x => packXNN 0xF#4 x 0x07#8
  | .ldVxK x => packXNN 0xF#4 x 0x0A#8
  | .ldDT x => packXNN 0xF#4 x 0x15#8
  | .ldST x => packXNN 0xF#4 x 0x18#8
  | .addI x => packXNN 0xF#4 x 0x1E#8
  | .ldF x => packXNN 0xF#4 x 0x29#8
  | .ldB x => packXNN 0xF#4 x 0x33#8
  | .stRegs x => packXNN 0xF#4 x 0x55#8
  | .ldRegs x => packXNN 0xF#4 x 0x65#8

/-- The two bytes of an opcode as memory holds them, high byte first (spec/20_memory.md R65). -/
def bytesOfWord (op : Word) : List Byte := [op.extractLsb' 8 8, op.extractLsb' 0 8]

/-! ## The opcode table (R86) -/

/-- One row of R86: `op` is the row's instruction iff `(op & mask) == val`. -/
structure OpcodeRow where
  /-- The four-digit pattern as the spec writes it. -/
  pattern : String
  /-- The assembler spelling of the row (R90). -/
  mnemonic : String
  /-- The column `match` of R86. -/
  val : Word
  /-- The column `mask` of R86. -/
  mask : Word
  deriving DecidableEq, Repr

/-- `(op & mask) == match` (R83). -/
def OpcodeRow.matches (r : OpcodeRow) (op : Word) : Bool := op &&& r.mask == r.val

/-- The row of each constructor (R86). -/
def rowOf : Instr → OpcodeRow
  | .cls => ⟨"00E0", "CLS", 0x00E0#16, 0xFFFF#16⟩
  | .ret => ⟨"00EE", "RET", 0x00EE#16, 0xFFFF#16⟩
  | .jp _ => ⟨"1nnn", "JP nnn", 0x1000#16, 0xF000#16⟩
  | .call _ => ⟨"2nnn", "CALL nnn", 0x2000#16, 0xF000#16⟩
  | .seImm _ _ => ⟨"3xnn", "SE Vx, nn", 0x3000#16, 0xF000#16⟩
  | .sneImm _ _ => ⟨"4xnn", "SNE Vx, nn", 0x4000#16, 0xF000#16⟩
  | .seReg _ _ => ⟨"5xy0", "SE Vx, Vy", 0x5000#16, 0xF00F#16⟩
  | .ldImm _ _ => ⟨"6xnn", "LD Vx, nn", 0x6000#16, 0xF000#16⟩
  | .addImm _ _ => ⟨"7xnn", "ADD Vx, nn", 0x7000#16, 0xF000#16⟩
  | .ldReg _ _ => ⟨"8xy0", "LD Vx, Vy", 0x8000#16, 0xF00F#16⟩
  | .orReg _ _ => ⟨"8xy1", "OR Vx, Vy", 0x8001#16, 0xF00F#16⟩
  | .andReg _ _ => ⟨"8xy2", "AND Vx, Vy", 0x8002#16, 0xF00F#16⟩
  | .xorReg _ _ => ⟨"8xy3", "XOR Vx, Vy", 0x8003#16, 0xF00F#16⟩
  | .addReg _ _ => ⟨"8xy4", "ADD Vx, Vy", 0x8004#16, 0xF00F#16⟩
  | .subReg _ _ => ⟨"8xy5", "SUB Vx, Vy", 0x8005#16, 0xF00F#16⟩
  | .shr _ _ => ⟨"8xy6", "SHR Vx", 0x8006#16, 0xF00F#16⟩
  | .subn _ _ => ⟨"8xy7", "SUBN Vx, Vy", 0x8007#16, 0xF00F#16⟩
  | .shl _ _ => ⟨"8xyE", "SHL Vx", 0x800E#16, 0xF00F#16⟩
  | .sneReg _ _ => ⟨"9xy0", "SNE Vx, Vy", 0x9000#16, 0xF00F#16⟩
  | .ldI _ => ⟨"Annn", "LD I, nnn", 0xA000#16, 0xF000#16⟩
  | .jpV0 _ => ⟨"Bnnn", "JP V0, nnn", 0xB000#16, 0xF000#16⟩
  | .rnd _ _ => ⟨"Cxnn", "RND Vx, nn", 0xC000#16, 0xF000#16⟩
  | .drw _ _ _ => ⟨"Dxyn", "DRW Vx, Vy, n", 0xD000#16, 0xF000#16⟩
  | .skp _ => ⟨"Ex9E", "SKP Vx", 0xE09E#16, 0xF0FF#16⟩
  | .sknp _ => ⟨"ExA1", "SKNP Vx", 0xE0A1#16, 0xF0FF#16⟩
  | .ldVxDT _ => ⟨"Fx07", "LD Vx, DT", 0xF007#16, 0xF0FF#16⟩
  | .ldVxK _ => ⟨"Fx0A", "LD Vx, K", 0xF00A#16, 0xF0FF#16⟩
  | .ldDT _ => ⟨"Fx15", "LD DT, Vx", 0xF015#16, 0xF0FF#16⟩
  | .ldST _ => ⟨"Fx18", "LD ST, Vx", 0xF018#16, 0xF0FF#16⟩
  | .addI _ => ⟨"Fx1E", "ADD I, Vx", 0xF01E#16, 0xF0FF#16⟩
  | .ldF _ => ⟨"Fx29", "LD F, Vx", 0xF029#16, 0xF0FF#16⟩
  | .ldB _ => ⟨"Fx33", "LD B, Vx", 0xF033#16, 0xF0FF#16⟩
  | .stRegs _ => ⟨"Fx55", "LD [I], Vx", 0xF055#16, 0xF0FF#16⟩
  | .ldRegs _ => ⟨"Fx65", "LD Vx, [I]", 0xF065#16, 0xF0FF#16⟩

/-- One instruction of each constructor, in the order of R86. -/
def tableOrder : List Instr :=
  [ .cls, .ret, .jp 0, .call 0, .seImm 0 0, .sneImm 0 0, .seReg 0 0, .ldImm 0 0, .addImm 0 0,
    .ldReg 0 0, .orReg 0 0, .andReg 0 0, .xorReg 0 0, .addReg 0 0, .subReg 0 0, .shr 0 0, .subn 0 0, .shl 0 0,
    .sneReg 0 0, .ldI 0, .jpV0 0, .rnd 0 0, .drw 0 0 0, .skp 0, .sknp 0,
    .ldVxDT 0, .ldVxK 0, .ldDT 0, .ldST 0, .addI 0, .ldF 0, .ldB 0, .stRegs 0, .ldRegs 0 ]

/-- The 34 rows of R86, in its order. -/
def opcodeTable : List OpcodeRow := tableOrder.map rowOf

/-! ## The host's question -/

/-- The instruction this decoder reads from an instruction whose bits are `w`, numbered as spec/opcode_table.json
numbers them: one 16-bit word, laid out high byte first (R80, spec/20_memory.md R65). Bits at or above `nbits` are 0. -/
def decodeTableWord (nbits w : Nat) : Option Instr :=
  match decode (bytesOfWord (BitVec.ofNat 16 (w % 2 ^ nbits))) with
  | .ok (i, _) => some i
  | .error _ => none

end Sys2Proof
end

