-- ==== Sys2Proof/Machine/State.lean ====
section
/-! DEFINITION. The state of the machine as plain data (spec/10_state.md section 1), the reasons a step can stop, and the
state after reset (R36). -/

namespace Sys2Proof.Machine

/-- `MEM` (spec/10_state.md R34): the (address, byte) pairs that differ from the reset content, addresses strictly
rising. An unlisted address reads as `Memory.initial` (Machine/Font.lean): log entry 2. -/
abbrev Memory := List Host.Cell

/-- `FB[x][y]`: 64 columns of 32 one-bit pixels, 1 = set (spec/10_state.md R29). -/
abbrev Frame := Vector (Vector Bool 32) 64

/-- The cause in the fault latch `FLT` (spec/10_state.md R32, spec/60_exceptions.md R221). The codes 5..7 never occur, so
the five causes are the whole type (log entry 10). -/
inductive Cause where
  /-- 0: no fault latched. -/
  | noFault
  /-- 1: `2nnn` at `SP = 16` (spec/60_exceptions.md R224). -/
  | stackOverflow
  /-- 2: `00EE` at `SP = 0` (R225). -/
  | stackUnderflow
  /-- 3: an access with a byte address above 0xFFF (R223, R226). -/
  | addressRange
  /-- 4: `Ex9E` or `ExA1` with `V[x] > 15` (R227). -/
  | keyIndex
  deriving DecidableEq, Repr

/-- All the state of the machine (spec/10_state.md section 1), and two fields for the input `rnd` of the event `step`
(R43): `rndIn` and the model's own counter `draws`. -/
structure State where
  /-- `V[0..15]`: the general registers (R20). -/
  v : Vector Byte 16
  /-- `I`: the index register, all 16 bits (R24). -/
  i : Word
  /-- `PC`: the address of the next instruction (R25). -/
  pc : Word
  /-- `STACK[0..15]`: return addresses (R26). -/
  stack : Vector Word 16
  /-- `SP`: the number of stack entries in use, 0..16 (R26). -/
  sp : Fin 17
  /-- `DT`: the delay timer (R27). -/
  dt : Byte
  /-- `ST`: the sound timer (R27). -/
  st : Byte
  /-- `FB`: the display buffer (R29). -/
  fb : Frame
  /-- `CHG`: the changed flag (R30). -/
  chg : Bool
  /-- `KEY[0..15]`: 1 = pressed (R31). -/
  key : Vector Bool 16
  /-- `FLT`: the fault latch (R32). -/
  flt : Cause
  /-- `MEM[0..4095]` (R34). -/
  mem : Memory
  /-- The byte `rnd` the host supplies with the current `step` event, where it is named (R43); `none`: the byte is a free
  value. Log entry 3. -/
  rndIn : Option Byte
  /-- The model's own: how many free random bytes have been drawn (log entry 3). No statement rests on its value. -/
  draws : Nat
  deriving DecidableEq, Repr

/-- The reasons the machine itself stops without a next state: there are none. Every event of the spec is total
(spec/93_implementation_defined.md, end of Part 1): an engine fault latches `FLT` and IS a next state
(spec/60_exceptions.md R222), so no step raises a `Fault` of this type (safe: log entry 5). -/
inductive Fault where
  deriving DecidableEq, Repr

/-- The reasons an instruction has no meaning. -/
inductive Refusal where
  /-- Raised by `exec` alone, in the arm of an instruction that is not modelled yet (safe). No arm raises it now. -/
  | notModelled (mnemonic : String)
  deriving DecidableEq, Repr

/-- What a step answers. -/
abbrev Result := Host.Outcome State Fault Refusal

/-- The state after `reset`, and at power-on (spec/10_state.md R36, spec/70_reset_and_hazards.md R260, R261). The spec
gives every value but those of the model's own `rndIn` and `draws` (DESIGN CHOICE, log entry 4). -/
def State.reset : State where
  v := Vector.replicate 16 0
  i := 0x0000
  pc := 0x0200
  stack := Vector.replicate 16 0
  sp := 0
  dt := 0
  st := 0
  fb := Vector.replicate 64 (Vector.replicate 32 false)
  chg := false
  key := Vector.replicate 16 false
  flt := .noFault
  mem := []
  rndIn := none
  draws := 0

end Sys2Proof.Machine
end

