-- ==== Sys2Proof/Machine/Font.lean ====
section
/-! DEFINITION. The parameter `FONT` (spec/00_scope.md R7) and the reset content of memory (spec/10_state.md R36,
spec/20_memory.md R61). -/

namespace Sys2Proof

/-- `FONT`: 16 glyphs of 5 bytes, the default table of spec/10_state.md R37. UNVERIFIED (the spec gives the bytes and marks
them 'from general knowledge'; spec/92_eei_decisions.md D18), log entry 1, unsafe: claims about glyph pixels rest on it. -/
def Config.font : List Byte :=
  ([0xF0, 0x90, 0x90, 0x90, 0xF0] : List Byte) ++
  ([0x20, 0x60, 0x20, 0x20, 0x70] : List Byte) ++
  ([0xF0, 0x10, 0xF0, 0x80, 0xF0] : List Byte) ++
  ([0xF0, 0x10, 0xF0, 0x10, 0xF0] : List Byte) ++
  ([0x90, 0x90, 0xF0, 0x10, 0x10] : List Byte) ++
  ([0xF0, 0x80, 0xF0, 0x10, 0xF0] : List Byte) ++
  ([0xF0, 0x80, 0xF0, 0x90, 0xF0] : List Byte) ++
  ([0xF0, 0x10, 0x20, 0x40, 0x40] : List Byte) ++
  ([0xF0, 0x90, 0xF0, 0x90, 0xF0] : List Byte) ++
  ([0xF0, 0x90, 0xF0, 0x10, 0xF0] : List Byte) ++
  ([0xF0, 0x90, 0xF0, 0x90, 0x90] : List Byte) ++
  ([0xE0, 0x90, 0xE0, 0x90, 0xE0] : List Byte) ++
  ([0xF0, 0x80, 0x80, 0x80, 0xF0] : List Byte) ++
  ([0xE0, 0x90, 0x90, 0x90, 0xE0] : List Byte) ++
  ([0xF0, 0x80, 0xF0, 0x80, 0xF0] : List Byte) ++
  ([0xF0, 0x80, 0xF0, 0x80, 0x80] : List Byte)

namespace Machine

/-- What an unlisted address reads as: `FONT` at 0x050..0x09F and 0x00 elsewhere, the content after `reset`
(spec/10_state.md R36, spec/20_memory.md R61). -/
def Memory.initial (a : Nat) : Byte :=
  if Config.fontBase ≤ a ∧ a < Config.fontBase + Config.fontLen then Config.font.getD (a - Config.fontBase) 0 else 0

end Machine

end Sys2Proof
end

