-- ==== Sys2Proof/Machine/Ops.lean ====
section
/-! DEFINITION. The named operations over memory, registers, program counter, call stack and fault latch, and taking a
fault (spec/20_memory.md R62 to R64, spec/10_state.md R20 to R32, spec/60_exceptions.md R222). -/

namespace Sys2Proof.Machine

/-! ## Memory -/

/-- The canonical form of `MEM`: addresses strictly rising, all below 4096, no entry equal to what its address reads as
when unlisted (log entry 2). Equal memories are then equal lists. -/
abbrev Memory.wf (m : Memory) : Prop :=
  m.Pairwise (fun c d => c.1 < d.1) ∧ ∀ c ∈ m, c.1 < Config.memSize ∧ c.2 ≠ Memory.initial c.1

/-- `MEM[a]`: the listed byte, or the reset content (spec/20_memory.md R61, R70 (c)). -/
def Memory.byte : Memory → Nat → Byte
  | [], a => Memory.initial a
  | (c, d) :: m, a => if a = c then d else Memory.byte m a

/-- `MEM[a] <- b`, keeping the canonical form: a byte equal to the reset content is not listed. -/
def Memory.put : Memory → Nat → Byte → Memory
  | [], a, b => if b = Memory.initial a then [] else [(a, b)]
  | (c, d) :: m, a, b =>
    if a < c then
      if b = Memory.initial a then (c, d) :: m else (a, b) :: (c, d) :: m
    else if a = c then
      if b = Memory.initial a then m else (a, b) :: m
    else (c, d) :: Memory.put m a b

/-- Every byte of the `n`-byte access at `a` has an address at most 0xFFF; an access of no bytes has none to check
(spec/20_memory.md R63; spec/41_display.md R123 (a)). The addresses are plain numbers, reduced modulo nothing. -/
def Memory.inRange (a n : Nat) : Bool := n == 0 || decide (a + n ≤ Config.memSize)

/-- `MemRead(a, 1)`: the byte, or `none` where the address does not exist (R62, R63). -/
def Memory.read (m : Memory) (a : Nat) : Option Byte :=
  if Memory.inRange a 1 then some (Memory.byte m a) else none

/-- The bytes at `a .. a+n-1`, the whole range checked first (R63, R67). -/
def Memory.readRange (m : Memory) (a n : Nat) : Option (List Byte) :=
  if Memory.inRange a n then some ((List.range n).map fun k => Memory.byte m (a + k)) else none

/-- `MemWrite(a, 1, b)`: the memory after it, or `none` where the address does not exist (R63, R64). -/
def Memory.write (m : Memory) (a : Nat) (b : Byte) : Option Memory :=
  if Memory.inRange a 1 then some (Memory.put m a b) else none

/-- Store the bytes at `a`, `a+1`, ... in ascending order (R64: single-byte writes). -/
def Memory.putAll : Memory → Nat → List Byte → Memory
  | m, _, [] => m
  | m, a, b :: bs => Memory.putAll (Memory.put m a b) (a + 1) bs

/-- Store a sequence of bytes, the whole range checked before any write, so that there is never a partial store
(R64, spec/60_exceptions.md R226). -/
def Memory.writeRange (m : Memory) (a : Nat) (bs : List Byte) : Option Memory :=
  if Memory.inRange a bs.length then some (Memory.putAll m a bs) else none

/-! ## Registers -/

/-- The value of `V[x]`; reading has no side effect (spec/10_state.md R20, R21). -/
def State.getV (s : State) (x : Reg) : Byte := s.v[x]

/-- `V[x] <- b` (R20). -/
def State.setV (s : State) (x : Reg) (b : Byte) : State := { s with v := s.v.set x b }

/-- `V[k], V[k+1], ... <- bs` in ascending order; an index above 15 is no register and nothing is written there. -/
def setRegs : Vector Byte 16 → Nat → List Byte → Vector Byte 16
  | v, _, [] => v
  | v, k, b :: bs => setRegs (if h : k < 16 then v.set k b h else v) (k + 1) bs

/-- The input state of a key (R31). -/
def State.keyDown (s : State) (k : Key) : Bool := s.key[k]

/-- The pixel `FB[px][py]`; `false` off the display, where there is no pixel (R29). -/
def Frame.pixel (f : Frame) (px py : Nat) : Bool :=
  if h : px < 64 ∧ py < 32 then (f[px]'h.1)[py]'h.2 else false

/-- The random byte of this step: the host's, where it named one, else a free value, which the counter `draws` makes a
fresh one each time (spec/43_register_alu.md R170, spec/10_state.md R43). DESIGN CHOICE, log entry 3, safe. -/
def State.rndByte (s : State) : Byte := s.rndIn.getD (Config.rndByte s.draws)

/-- The state after the random byte is taken: a named byte is used up, a free one advances the counter. -/
def State.takeRnd (s : State) : State :=
  match s.rndIn with
  | some _ => { s with rndIn := none }
  | none => { s with draws := s.draws + 1 }

/-! ## Program counter (spec/00_scope.md R12, spec/40_step_cycle.md R105) -/

/-- `pcn`: the address of the next sequential instruction, modulo 0x10000 (R12). -/
def State.pcn (s : State) : Word := s.pc + 2

/-- `PC <- target`, as it stands: no mask, no alignment (spec/42_control_transfer.md R130). -/
def State.goto (s : State) (target : Word) : State := { s with pc := target }

/-- "PC: sequential": `PC <- pcn` (R12). -/
def State.advance (s : State) : State := s.goto s.pcn

/-- A conditional skip: over exactly one 2-byte slot if the condition holds (spec/42_control_transfer.md R130). -/
def State.skipIf (s : State) (cond : Bool) : State := s.goto (if cond then s.pcn + 2 else s.pcn)

/-! ## Call stack (spec/10_state.md R26) -/

/-- `STACK[SP] <- w; SP <- SP + 1`, or `none` with all 16 entries in use. -/
def State.push (s : State) (w : Word) : Option State :=
  if h : s.sp.val < 16 then
    some { s with stack := s.stack.set s.sp.val w h, sp := ⟨s.sp.val + 1, Nat.succ_lt_succ h⟩ }
  else none

/-- `SP <- SP - 1` and the entry then at `STACK[SP]`, which stays in place (R26, log entry 25); `none` with no entry. -/
def State.pop (s : State) : Option (Word × State) :=
  if h : s.sp.val = 0 then none
  else
    some (s.stack[s.sp.val - 1]'(by have := s.sp.isLt; omega), { s with sp := ⟨s.sp.val - 1, by have := s.sp.isLt; omega⟩ })

/-! ## Taking a fault (spec/60_exceptions.md R222) -/

/-- The code `FLT` holds for a cause (spec/60_exceptions.md R221). -/
def Cause.code : Cause → BitVec 3
  | .noFault => 0
  | .stackOverflow => 1
  | .stackUnderflow => 2
  | .addressRange => 3
  | .keyIndex => 4

/-- `raise Fault(c)`: `FLT <- c` and nothing else; `PC` stays at the faulting instruction, nothing is saved, control goes
nowhere (R222). There is no return from a fault: only `reset` and a successful `load` clear the latch (R229), and they
are in Machine/HostEvents.lean. -/
def raise (c : Cause) (s : State) : Result := .next { s with flt := c }

/-! ## Fetch (spec/40_step_cycle.md R101) -/

/-- `MemRead(PC, 2)`, big-endian; `none` where `PC` or `PC + 1` is above 0xFFF (R101, spec/20_memory.md R62, R65). -/
def State.fetch (s : State) : Option Word :=
  if Memory.inRange s.pc.toNat 2 then
    some (wordOfBytes (Memory.byte s.mem s.pc.toNat) (Memory.byte s.mem (s.pc.toNat + 1)))
  else none

end Sys2Proof.Machine
end

