-- ==== Sys2Proof/Machine/Flags.lean ====
section
/-! DEFINITION. The flags: every one is a value 0 or 1 written to VF (spec/10_state.md R22, spec/43_register_alu.md
R150). -/

namespace Sys2Proof.Machine

/-- `VF <- 1` or `VF <- 0`. The flag write is the last register write of its instruction and wins when `x = 0xF`
(spec/10_state.md R23; the spec's decision D8: UNVERIFIED, log entry 7, unsafe). -/
def State.setFlag (s : State) (flag : Bool) : State := s.setV Reg.vf (if flag then 1 else 0)

/-- Carry: 1 iff the true sum exceeds 255 (R150, R157). -/
def carryOut (a b : Byte) : Bool := decide (255 < a.toNat + b.toNat)

/-- The subtract flag: 1 iff minuend >= subtrahend, that is no borrow (R150, R158, R160). -/
def noBorrow (minuend subtrahend : Byte) : Bool := decide (subtrahend.toNat ≤ minuend.toNat)

/-- The bit a right shift drops: old bit 0 (R159). -/
def lowBit (a : Byte) : Bool := a.getLsbD 0

/-- The bit a left shift drops: old bit 7 (R161). -/
def highBit (a : Byte) : Bool := a.getLsbD 7

/-- A result and its flag: the result to `V[x]`, then the flag to VF, then `PC <- pcn` (R157 to R161). -/
def State.writeWithFlag (s : State) (x : Reg) (result : Byte) (flag : Bool) : State :=
  ((s.setV x result).setFlag flag).advance

end Sys2Proof.Machine
end

