-- ==== Sys2Proof/Machine/Operands.lean ====
section
/-! DEFINITION. The operand forms (spec/30_encoding.md R82) and the one data addressing mode, register-indirect through
`I` with an ascending offset (spec/44_index_memory.md R186). -/

namespace Sys2Proof.Machine

/-- `nnn` zero-extended to 16 bits (R82). -/
def zextNNN (nnn : Imm12) : Word := nnn.setWidth 16

/-- A register zero-extended to 16 bits (spec/44_index_memory.md R181, spec/42_control_transfer.md R138). -/
def zextByte (b : Byte) : Word := b.setWidth 16

/-- A register result in `V[x]`, then `PC <- pcn`. -/
def State.writeReg (s : State) (x : Reg) (b : Byte) : State := (s.setV x b).advance

/-- `MEM[I .. I+n-1]`, the whole range checked (spec/20_memory.md R63, R67). -/
def State.loadAtI (s : State) (n : Nat) : Option (List Byte) := Memory.readRange s.mem s.i.toNat n

/-- Bytes stored at `I`, `I+1`, ..., the whole range checked before any write (R64). -/
def State.storeAtI (s : State) (bs : List Byte) : Option State :=
  (Memory.writeRange s.mem s.i.toNat bs).map fun m => { s with mem := m }

/-- `V[0..x]` as a list, in ascending order: the field `x` is index and count (R82, spec/44_index_memory.md R184). -/
def State.regsUpTo (s : State) (x : Reg) : List Byte := s.v.toList.take (x.val + 1)

/-- `I <- I + x + 1` (spec/44_index_memory.md R184, R185; quirk (c) of spec/00_scope.md R14). -/
def State.bumpI (s : State) (x : Reg) : State := { s with i := s.i + BitVec.ofNat 16 (x.val + 1) }

/-- The three decimal digits of a byte: hundreds, tens, ones (spec/44_index_memory.md R183). -/
def bcdDigits (b : Byte) : List Byte :=
  [BitVec.ofNat 8 (b.toNat / 100), BitVec.ofNat 8 (b.toNat / 10 % 10), BitVec.ofNat 8 (b.toNat % 10)]

/-- The font address of the low nibble of a byte: `0x0050 + 5 * d` (spec/44_index_memory.md R182). -/
def fontAddress (b : Byte) : Word := BitVec.ofNat 16 (Config.fontBase + 5 * (b.extractLsb' 0 4).toNat)

/-- The key a register names, or `none` for a value above 15 (spec/45_keys_timers.md R200, R201). -/
def keyOf (b : Byte) : Option Key := if h : b.toNat < 16 then some ⟨b.toNat, h⟩ else none

/-- The scan of `Fx0A`: all sixteen keys in ascending order, not stopping at a match, so the last found is the highest
pressed (spec/45_keys_timers.md R203; quirk (d) of spec/00_scope.md R14). -/
def State.scanKeys (s : State) : Option Key :=
  (List.finRange 16).foldl (fun last k => if s.keyDown k then some k else last) none

end Sys2Proof.Machine
end

