-- ==== Sys2Proof/Machine/Alu.lean ====
section
/-! DEFINITION. Register load, arithmetic and logic (spec/43_register_alu.md). Operands are read from `s`, the state
before any write; a flag is written last (spec/10_state.md R23). -/

namespace Sys2Proof.Machine

/-- LD Vx, nn (R151). -/
def execLdImm (x : Reg) (nn : Byte) (s : State) : Result := .next (s.writeReg x nn)

/-- ADD Vx, nn (R152): modulo 256, no flag. -/
def execAddImm (x : Reg) (nn : Byte) (s : State) : Result := .next (s.writeReg x (s.getV x + nn))

/-- LD Vx, Vy (R153; operands UNVERIFIED, log entry 14). -/
def execLdReg (x y : Reg) (s : State) : Result := .next (s.writeReg x (s.getV y))

/-- OR Vx, Vy (R154; operands UNVERIFIED, log entry 14): no flag. -/
def execOrReg (x y : Reg) (s : State) : Result := .next (s.writeReg x (s.getV x ||| s.getV y))

/-- AND Vx, Vy (R155; operands UNVERIFIED, log entry 14): no flag. -/
def execAndReg (x y : Reg) (s : State) : Result := .next (s.writeReg x (s.getV x &&& s.getV y))

/-- XOR Vx, Vy (R156; operands UNVERIFIED, log entry 14): no flag. -/
def execXorReg (x y : Reg) (s : State) : Result := .next (s.writeReg x (s.getV x ^^^ s.getV y))

/-- ADD Vx, Vy (R157): VF = carry out, no carry in. -/
def execAddReg (x y : Reg) (s : State) : Result :=
  .next (s.writeWithFlag x (s.getV x + s.getV y) (carryOut (s.getV x) (s.getV y)))

/-- SUB Vx, Vy (R158): VF = no borrow. -/
def execSubReg (x y : Reg) (s : State) : Result :=
  .next (s.writeWithFlag x (s.getV x - s.getV y) (noBorrow (s.getV x) (s.getV y)))

/-- SHR Vx (R159): `V[y]` is neither read nor written. -/
def execShr (x _y : Reg) (s : State) : Result :=
  .next (s.writeWithFlag x (s.getV x >>> 1) (lowBit (s.getV x)))

/-- SUBN Vx, Vy (R160): `V[y] - V[x]`, VF = no borrow. -/
def execSubn (x y : Reg) (s : State) : Result :=
  .next (s.writeWithFlag x (s.getV y - s.getV x) (noBorrow (s.getV y) (s.getV x)))

/-- SHL Vx (R161): `V[y]` is neither read nor written. -/
def execShl (x _y : Reg) (s : State) : Result :=
  .next (s.writeWithFlag x (s.getV x <<< 1) (highBit (s.getV x)))

/-- RND Vx, nn (R170). -/
def execRnd (x : Reg) (nn : Byte) (s : State) : Result := .next (s.takeRnd.writeReg x (s.rndByte &&& nn))

end Sys2Proof.Machine
end

