-- ==== Sys2Proof/Machine/Control.lean ====
section
/-! DEFINITION. Control transfer (spec/42_control_transfer.md) and the unknown opcode (spec/40_step_cycle.md R104).
`s.pc` is `pc0` throughout: the step does not move `PC` before the meaning runs (spec/00_scope.md R12). -/

namespace Sys2Proof.Machine

/-- RET (R131). -/
def execRet (s : State) : Result :=
  match s.pop with
  | none => raise .stackUnderflow s
  | some (target, t) => .next (t.goto target)

/-- JP nnn (R132). -/
def execJp (nnn : Imm12) (s : State) : Result := .next (s.goto (zextNNN nnn))

/-- CALL nnn (R133): the value pushed is `pcn`. -/
def execCall (nnn : Imm12) (s : State) : Result :=
  match s.push s.pcn with
  | none => raise .stackOverflow s
  | some t => .next (t.goto (zextNNN nnn))

/-- SE Vx, nn (R134). -/
def execSeImm (x : Reg) (nn : Byte) (s : State) : Result := .next (s.skipIf (s.getV x == nn))

/-- SNE Vx, nn (R135). -/
def execSneImm (x : Reg) (nn : Byte) (s : State) : Result := .next (s.skipIf (s.getV x != nn))

/-- SE Vx, Vy (R136). -/
def execSeReg (x y : Reg) (s : State) : Result := .next (s.skipIf (s.getV x == s.getV y))

/-- SNE Vx, Vy (R137). -/
def execSneReg (x y : Reg) (s : State) : Result := .next (s.skipIf (s.getV x != s.getV y))

/-- JP V0, nnn (R138): `V[0]`, never `V[x]`; the sum is not masked. -/
def execJpV0 (nnn : Imm12) (s : State) : Result := .next (s.goto (zextNNN nnn + zextByte (s.getV 0)))

/-- A word that matches no row of R86: a no-operation that advances `PC` by 2, nothing latched, nothing reported
(spec/40_step_cycle.md R104, spec/30_encoding.md R88, spec/43_register_alu.md R162). UNVERIFIED for the words of
U2 (log entry 6, unsafe). -/
def execUnknown (_op : Word) (s : State) : Result := .next s.advance

end Sys2Proof.Machine
end

