-- ==== Sys2Proof/Machine/Display.lean ====
section
/-! DEFINITION. Display instructions `00E0`, `Dxyn` (spec/41_display.md). -/

namespace Sys2Proof.Machine

/-- The display with every pixel 0 (R120). -/
def Frame.blank : Frame := Vector.replicate 64 (Vector.replicate 32 false)

/-- A drawing under way: the display and the collision bit `coll` (R121). -/
structure Canvas where
  /-- The display as drawn so far. -/
  frame : Frame
  /-- `coll`: some set sprite bit has landed on a set pixel. -/
  coll : Bool
  deriving DecidableEq, Repr

/-- One set sprite bit at `(px, py)`: dropped outside the display, else it collides with a set pixel and flips it
(R121). -/
def Canvas.plot (d : Canvas) (px py : Nat) : Canvas :=
  if h : px ≤ 63 ∧ py ≤ 31 then
    have hx : px < 64 := Nat.lt_succ_of_le h.1
    have hy : py < 32 := Nat.lt_succ_of_le h.2
    let old := d.frame[px][py]
    { frame := d.frame.set px (d.frame[px].set py (old ^^ true)), coll := d.coll || old }
  else d

/-- One sprite row: bit `7 - c` of the byte is column `c` (R121, R122 (a): bit order UNVERIFIED, log entry 9). -/
def Canvas.drawRow (d : Canvas) (b : Byte) (x0 py : Nat) : Canvas :=
  (List.range 8).foldl (fun d c => if b.getLsbD (7 - c) then d.plot (x0 + c) py else d) d

/-- The sprite rows from the top (R121, R122 (b)). -/
def Canvas.drawRows : Canvas → List Byte → Nat → Nat → Canvas
  | d, [], _, _ => d
  | d, b :: bs, x0, py => (d.drawRow b x0 py).drawRows bs x0 (py + 1)

/-- `x0 = V[x] mod 64`: the origin wraps (R121). -/
def originX (b : Byte) : Nat := b.toNat % 64

/-- `y0 = V[y] mod 32` (R121). -/
def originY (b : Byte) : Nat := b.toNat % 32

/-- CLS (R120). -/
def execCls (s : State) : Result :=
  .next ({ s with fb := Frame.blank, chg := true } : State).advance

/-- DRW Vx, Vy, n (R121): coordinates read first, all `n` bytes range-checked before any write, VF written on every
non-faulting execution, `CHG` always raised. -/
def execDrw (x y : Reg) (n : Height) (s : State) : Result :=
  match s.loadAtI n.val with
  | none => raise .addressRange s
  | some rows =>
    let drawn := Canvas.drawRows ⟨s.fb, false⟩ rows (originX (s.getV x)) (originY (s.getV y))
    .next ((({ s with fb := drawn.frame, chg := true } : State).setFlag drawn.coll).advance)

end Sys2Proof.Machine
end

