-- ==== Sys2Proof/Machine/Index.lean ====
section
/-! DEFINITION. Index register and memory instructions (spec/44_index_memory.md). -/

namespace Sys2Proof.Machine

/-- LD I, nnn (R180). -/
def execLdI (nnn : Imm12) (s : State) : Result := .next ({ s with i := zextNNN nnn } : State).advance

/-- ADD I, Vx (R181): modulo 0x10000, no flag. -/
def execAddI (x : Reg) (s : State) : Result := .next ({ s with i := s.i + zextByte (s.getV x) } : State).advance

/-- LD F, Vx (R182): no memory access. -/
def execLdF (x : Reg) (s : State) : Result := .next ({ s with i := fontAddress (s.getV x) } : State).advance

/-- LD B, Vx (R183): three digits at `I`, `I` not moved. -/
def execLdB (x : Reg) (s : State) : Result :=
  match s.storeAtI (bcdDigits (s.getV x)) with
  | none => raise .addressRange s
  | some t => .next t.advance

/-- LD [I], Vx (R184): `V[0..x]` to memory, then `I <- I + x + 1`. -/
def execStRegs (x : Reg) (s : State) : Result :=
  match s.storeAtI (s.regsUpTo x) with
  | none => raise .addressRange s
  | some t => .next (t.bumpI x).advance

/-- LD Vx, [I] (R185): memory to `V[0..x]`, then `I <- I + x + 1`; `I` is read once, before the loop. -/
def execLdRegs (x : Reg) (s : State) : Result :=
  match s.loadAtI (x.val + 1) with
  | none => raise .addressRange s
  | some bs => .next (({ s with v := setRegs s.v 0 bs } : State).bumpI x).advance

end Sys2Proof.Machine
end

