-- ==== Sys2Proof/Machine/KeysTimers.lean ====
section
/-! DEFINITION. Key and timer instructions (spec/45_keys_timers.md). -/

namespace Sys2Proof.Machine

/-- SKP Vx (R200). -/
def execSkp (x : Reg) (s : State) : Result :=
  match keyOf (s.getV x) with
  | none => raise .keyIndex s
  | some k => .next (s.skipIf (s.keyDown k))

/-- SKNP Vx (R201). -/
def execSknp (x : Reg) (s : State) : Result :=
  match keyOf (s.getV x) with
  | none => raise .keyIndex s
  | some k => .next (s.skipIf (!s.keyDown k))

/-- LD Vx, DT (R202). -/
def execLdVxDT (x : Reg) (s : State) : Result := .next (s.writeReg x s.dt)

/-- LD Vx, K (R203): with no key pressed no state changes at all; else the highest pressed key. -/
def execLdVxK (x : Reg) (s : State) : Result :=
  match s.scanKeys with
  | none => .next s
  | some k => .next (s.writeReg x (BitVec.ofNat 8 k.val))

/-- LD DT, Vx (R204). -/
def execLdDT (x : Reg) (s : State) : Result := .next ({ s with dt := s.getV x } : State).advance

/-- LD ST, Vx (R205). -/
def execLdST (x : Reg) (s : State) : Result := .next ({ s with st := s.getV x } : State).advance

end Sys2Proof.Machine
end

