-- ==== Sys2Proof/Machine/Cycle.lean ====
section
/-! DEFINITION. The event `step` (spec/40_step_cycle.md R100 to R104): fault gate, fetch, decode, execute. -/

namespace Sys2Proof.Machine

/-- One `step`: nothing while a fault is latched (R100); the fetch fault before any decode (R101); then the decoded
instruction exactly once (R102, R103), or the no-operation of an unknown opcode (R104). -/
def stepEvent (s : State) : Result :=
  if s.flt = .noFault then
    match s.fetch with
    | none => raise .addressRange s
    | some op =>
      match decodeWord op with
      | .ok i => exec i s
      | .error _ => execUnknown op s
  else .next s

/-- Place an opcode where the next fetch reads, high byte first (R101, spec/20_memory.md R65): memory and nothing else
changes, and not even memory where `PC` or `PC + 1` is no address. -/
def placeAtPC (op : Word) (s : State) : State :=
  { s with mem := (Memory.writeRange s.mem s.pc.toNat (bytesOfWord op)).getD s.mem }

end Sys2Proof.Machine
end

