-- ==== Sys2Proof/Machine/Step.lean ====
section
/-! DEFINITION. The step the host runs, and placing a word where it fetches. Both only call Machine/Cycle.lean. -/

namespace Sys2Proof.Machine

/-- The event `step` of spec/10_state.md R43 (the other five events are in Machine/HostEvents.lean: log entry 8). -/
def step (s : State) : Host.Outcome State Fault Refusal := stepEvent s

/-- `s` with the instruction whose bits are `w` stored where `step` fetches next (log entry 20). Only memory changes, so
with a latched fault, or `PC` above 0xFFE, the next step still does what R100 and R101 say. -/
def State.withFetchWord (s : State) (nbits w : Nat) : State := placeAtPC (BitVec.ofNat 16 (w % 2 ^ nbits)) s

end Sys2Proof.Machine
end

