-- ==== Sys2Proof/Machine/HostEvents.lean ====
section
/-! DEFINITION. The host's events other than `step`, and the outputs (spec/10_state.md R40 to R47,
spec/60_exceptions.md R240, spec/70_reset_and_hazards.md R260 to R263). Each is total and enabled in every state. -/

namespace Sys2Proof.Machine

/-- `reset`: every state element of the spec at its reset value (R41, R260). The random input is not state (R35) and is
left alone, so that a reset repeats no byte that was drawn before it (spec/91_not_in_source.md N7; DESIGN CHOICE,
log entry 4, unsafe in form: no statement rests on them). -/
def resetEvent (s : State) : State := { State.reset with rndIn := s.rndIn, draws := s.draws }

/-- What `load` reports (R42). -/
inductive LoadReport where
  /-- The image is in memory (R262). -/
  | success
  /-- The image is longer than 3584 bytes; nothing changed (R263). -/
  | imageTooLarge
  deriving DecidableEq, Repr

/-- The report of `load img`: the length alone decides, before anything else happens (R263). -/
def loadReport (img : List Byte) : LoadReport := if imageOk img then .success else .imageTooLarge

/-- `load img`: reset, then the image verbatim from 0x200 (R262); a too long image changes nothing (R263; the
spec's decision D13: log entry 15). -/
def loadEvent (img : List Byte) (s : State) : State :=
  match loadReport img with
  | .success => { resetEvent s with mem := Memory.putAll State.reset.mem Config.progBase img }
  | .imageTooLarge => s

/-- A counter one tick on: floored at 0 (R240). -/
def countDown (b : Byte) : Byte := if 0 < b.toNat then b - 1 else b

/-- `tick`: both counters, independently, and nothing else (R44, R240). -/
def tickEvent (s : State) : State := { s with dt := countDown s.dt, st := countDown s.st }

/-- `n` ticks (R241). -/
def ticks : Nat → State → State
  | 0, s => s
  | n + 1, s => ticks n (tickEvent s)

/-- `key_set(k, b)` (R45). -/
def keySetEvent (k : Key) (b : Bool) (s : State) : State := { s with key := s.key.set k b }

/-- `ack_changed` (R46; log entry 21). -/
def ackChangedEvent (s : State) : State := { s with chg := false }

/-- `sound_active`: an output, `ST != 0` at every instant (R28, spec/60_exceptions.md R243). -/
def State.soundActive (s : State) : Bool := s.st != 0

/-- What the host can read between two events (R47). -/
structure Outputs where
  /-- Every pixel. -/
  frame : Frame
  /-- `CHG`. -/
  chg : Bool
  /-- `sound_active`. -/
  soundActive : Bool
  /-- `FLT`, as its code. -/
  flt : BitVec 3
  deriving DecidableEq, Repr

/-- The outputs; reading them changes nothing (R47). -/
def State.outputs (s : State) : Outputs := ⟨s.fb, s.chg, s.soundActive, s.flt.code⟩

end Sys2Proof.Machine
end

