-- ==== Sys2Proof/Machine/Events.lean ====
section
/-! DEFINITION. The machine as a labelled transition system: the six events, one at a time, in any order the host chooses
(spec/10_state.md R40, R48, R49). -/

namespace Sys2Proof.Machine

/-- The host's events (R40). -/
inductive Event where
  /-- `reset` (R41). -/
  | reset
  /-- `load(img)` (R42). -/
  | load (img : List Byte)
  /-- `key_set(k, b)` (R45). -/
  | keySet (k : Key) (b : Bool)
  /-- `ack_changed` (R46). -/
  | ackChanged
  /-- `step(rnd)` (R43). -/
  | step (rnd : Byte)
  /-- `tick` (R44). -/
  | tick
  deriving DecidableEq, Repr

/-- `step(rnd)`: the step with the host's byte as its random input; the byte lasts for this step only (R43). -/
def stepWith (rnd : Byte) (s : State) : Result :=
  match step { s with rndIn := some rnd } with
  | .next t => .next { t with rndIn := s.rndIn }
  | .fault r => .fault r
  | .refused r => .refused r

/-- One event (R40). -/
def apply (e : Event) (s : State) : Result :=
  match e with
  | .reset => .next (resetEvent s)
  | .load img => .next (loadEvent img s)
  | .keySet k b => .next (keySetEvent k b s)
  | .ackChanged => .next (ackChangedEvent s)
  | .step r => stepWith r s
  | .tick => .next (tickEvent s)

/-- A sequence of events, each run to completion before the next (R40). -/
def runEvents : List Event → State → Result
  | [], s => .next s
  | e :: es, s =>
    match apply e s with
    | .next t => runEvents es t
    | .fault r => .fault r
    | .refused r => .refused r

/-- The place of an event in the order of R48, first to last. -/
def Event.rank : Event → Nat
  | .reset => 0
  | .load _ => 1
  | .keySet _ _ => 2
  | .ackChanged => 3
  | .step _ => 4
  | .tick => 5

/-- Requests received at once, serialised in the order of R48; requests of one kind keep the order they are listed in
(DESIGN CHOICE, log entry 17). -/
def serialise (es : List Event) : List Event :=
  (List.range 6).flatMap fun r => es.filter fun e => e.rank == r

end Sys2Proof.Machine
end

