-- ==== Sys2Proof/Safety.lean ====
section
/-! DEFINITION. The words the claims use: which part of the state two states share, which instruction a step runs, the
invariant of every reachable state, and the spec's whole-machine tables restated as functions. -/

namespace Sys2Proof.Machine

/-! ## Frames -/

/-- The pieces of state of spec/10_state.md section 1, and the random input. -/
inductive Part where
  | regs | index | counter | stack | pointer | delay | sound | display | changed | keys | fault | memory | random
  deriving DecidableEq, Repr

/-- Two states agree on a part, as the accessors of the machine see it. -/
def Part.same : Part → State → State → Prop
  | .regs, s, t => ∀ r : Reg, t.getV r = s.getV r
  | .index, s, t => t.i = s.i
  | .counter, s, t => t.pc = s.pc
  | .stack, s, t => ∀ j : Fin 16, t.stack[j] = s.stack[j]
  | .pointer, s, t => t.sp = s.sp
  | .delay, s, t => t.dt = s.dt
  | .sound, s, t => t.st = s.st
  | .display, s, t => ∀ px py : Nat, t.fb.pixel px py = s.fb.pixel px py
  | .changed, s, t => t.chg = s.chg
  | .keys, s, t => ∀ k : Key, t.keyDown k = s.keyDown k
  | .fault, s, t => t.flt = s.flt
  | .memory, s, t => ∀ a : Nat, Memory.read t.mem a = Memory.read s.mem a
  | .random, s, t => t.rndIn = s.rndIn ∧ t.draws = s.draws

/-- The frame: every part that is not listed is the same in `t` as in `s` (spec/00_scope.md R13). -/
def sameBut (ps : List Part) (s t : State) : Prop := ∀ p : Part, p ∉ ps → p.same s t

/-- Every general register but those listed is the same in `t` as in `s`. -/
def regsBut (xs : List Reg) (s t : State) : Prop := ∀ r : Reg, r ∉ xs → t.getV r = s.getV r

/-- Every byte of memory outside `a .. a+n-1` reads in `t` as it read in `s`. -/
def memoryBut (a n : Nat) (s t : State) : Prop :=
  ∀ b : Nat, (b < a ∨ a + n ≤ b) → Memory.read t.mem b = Memory.read s.mem b

/-! ## What a step runs -/

/-- The step at `s` fetches and executes `i` (spec/40_step_cycle.md R101 to R103), no fault being latched. -/
def executes (s : State) (i : Instr) : Prop :=
  s.flt = .noFault ∧ ∃ op, s.fetch = some op ∧ decodeWord op = .ok i

/-! ## Invariant -/

/-- What holds in every reachable state beyond what the types say (spec/10_state.md R38): memory in canonical form, `PC`
at most 0x10FE, every stack entry at most 0x1000. -/
def Inv (s : State) : Prop :=
  Memory.wf s.mem ∧ s.pc.toNat ≤ 0x10FE ∧ ∀ j : Fin 16, s.stack[j].toNat ≤ 0x1000

/-! ## The spec's tables as functions -/

/-- The condition of a skip instruction on the state before it (spec/42_control_transfer.md R134 to R137,
spec/45_keys_timers.md R200, R201); `false` for an instruction that is no skip. -/
def skipHolds (i : Instr) (s : State) : Prop :=
  match i with
  | .seImm x nn => s.getV x = nn
  | .sneImm x nn => s.getV x ≠ nn
  | .seReg x y => s.getV x = s.getV y
  | .sneReg x y => s.getV x ≠ s.getV y
  | .skp x => ∃ k : Key, k.val = (s.getV x).toNat ∧ s.keyDown k = true
  | .sknp x => ∃ k : Key, k.val = (s.getV x).toNat ∧ s.keyDown k = false
  | _ => False

/-- The `PC` sequencer (spec/40_step_cycle.md R105): `p` is a value the table gives for `PC` after a non-faulting `i`. -/
def sequencer (i : Instr) (s : State) (p : Word) : Prop :=
  match i with
  | .jp nnn => p.toNat = nnn.toNat
  | .call nnn => p.toNat = nnn.toNat
  | .ret => ∃ j : Fin 16, j.val + 1 = s.sp.val ∧ p = s.stack[j]
  | .jpV0 nnn => p.toNat = nnn.toNat + (s.getV 0).toNat
  | .ldVxK _ => (∀ k : Key, s.keyDown k = false) ∧ p = s.pc ∨ (∃ k : Key, s.keyDown k = true) ∧ p = s.pcn
  | _ => skipHolds i s ∧ p = s.pcn + 2 ∨ ¬ skipHolds i s ∧ p = s.pcn

/-- The set bit of the clipped sprite at `(px, py)`: row `py - y0` of the `n` bytes at `I`, column `px - x0`, bit 7
leftmost (spec/41_display.md R121 to R123). -/
def spriteBit (s : State) (x y : Reg) (n : Height) (px py : Nat) : Bool :=
  let x0 := (s.getV x).toNat % 64
  let y0 := (s.getV y).toNat % 32
  decide (x0 ≤ px ∧ px < x0 + 8 ∧ y0 ≤ py ∧ py < y0 + n.val) &&
    (Memory.byte s.mem (s.i.toNat + (py - y0))).getLsbD (7 - (px - x0))

/-- The byte at `a` once `f 0, f 1, ...`, `n` bytes, are stored at `I`, `I + 1`, ...: the stored byte inside that range, the
old byte outside it (spec/20_memory.md R64, R73). -/
def byteAfterStore (s : State) (n : Nat) (f : Nat → Byte) (a : Nat) : Byte :=
  if s.i.toNat ≤ a ∧ a < s.i.toNat + n then f (a - s.i.toNat) else Memory.byte s.mem a

/-- The opcode at `a` once `n` bytes are stored at `I`, high byte first (spec/20_memory.md R65, R73). -/
def wordAfterStore (s : State) (n : Nat) (f : Nat → Byte) (a : Nat) : Word :=
  wordOfBytes (byteAfterStore s n f a) (byteAfterStore s n f (a + 1))

end Sys2Proof.Machine
end

