-- ==== Sys2Proof/Certificates/Slice0/Obligations.lean ====
section
/-! DEFINITION. The statements for the provers, from the numbered rules of spec/ (OBLIGATIONS.json lists them). An
instruction's result statement says its encoding as a number, that `exec` answers a next state under hypotheses on the
state and the operands alone, what that state holds, and its frame. Arithmetic is on plain numbers, as the rules say
it. -/

open Sys2Proof
open Sys2Proof.Machine

/-! ## The step (spec/40_step_cycle.md) -/

/-- R101 to R103: with no fault latched, a step whose two bytes at `PC` decode to `i` is `exec i`, and adds nothing
around it. -/
def Obligations.StepRunsTheDecodedInstruction : Prop :=
  ∀ (s : State) (i : Instr), s.flt = .noFault → s.pc.toNat ≤ 0xFFE →
    decode [Memory.byte s.mem s.pc.toNat, Memory.byte s.mem (s.pc.toNat + 1)] = .ok (i, []) → i.wellFormed = true →
    step s = exec i s

/-- R104: a fetched word that matches no row of R86 advances `PC` by 2 and changes nothing else; 0x0000 is such a word;
from a `PC` with only zero bytes from there on, the steps walk two bytes at a time to 0xFFF or 0x1000 and fault at
fetch. -/
def Obligations.UnknownOpcodeOnlyAdvancesThePc : Prop :=
  (∀ (s : State) (op : Word), s.flt = .noFault → s.fetch = some op → (∀ r ∈ opcodeTable, r.matches op = false) →
    ∃ t, step s = .next t ∧ t.pc.toNat = s.pc.toNat + 2 ∧ sameBut [.counter] s t) ∧
  (∀ r ∈ opcodeTable, r.matches 0x0000#16 = false) ∧
  ∀ (s : State) (rs : List Byte), s.flt = .noFault → s.pc.toNat ≤ 0x1000 →
    (∀ a, s.pc.toNat ≤ a → a ≤ 0xFFF → Memory.read s.mem a = some 0) → rs.length = (0x1000 - s.pc.toNat) / 2 + 1 →
    ∃ t, runEvents (rs.map .step) s = .next t ∧ t.flt = .addressRange ∧
      t.pc.toNat = s.pc.toNat + 2 * ((0x1000 - s.pc.toNat) / 2) ∧ sameBut [.counter, .fault] s t

/-- R100: while a fault is latched a step changes nothing, whatever byte the host supplies, and no event but `reset` and
a successful `load` clears the latch. -/
def Obligations.LatchedFaultHaltsTheEngine : Prop :=
  ∀ s : State, s.flt ≠ .noFault →
    step s = .next s ∧ (∀ r : Byte, apply (.step r) s = .next s) ∧
    ∀ (e : Event) (t : State), apply e s = .next t → t.flt = .noFault →
      e = .reset ∨ ∃ img, e = .load img ∧ loadReport img = .success

/-- R101: fetch faults exactly where `PC` or `PC + 1` is above 0xFFF, and reads two bytes, the first the high one; the
instruction that runs is the one fetched, whatever it then stores. -/
def Obligations.FetchReadsBigEndianOrFaults : Prop :=
  ∀ s : State, s.flt = .noFault →
    (0xFFE < s.pc.toNat → step s = .next { s with flt := .addressRange }) ∧
    (s.pc.toNat ≤ 0xFFE → ∃ op : Word, s.fetch = some op ∧
      op.toNat = 256 * (Memory.byte s.mem s.pc.toNat).toNat + (Memory.byte s.mem (s.pc.toNat + 1)).toNat ∧
      s.pcn.toNat = s.pc.toNat + 2 ∧ ∀ i, decodeWord op = .ok i → step s = exec i s)

/-- R106: every step, and every event, ends in a next state. -/
def Obligations.EveryStepAndEventTerminates : Prop :=
  (∀ s : State, ∃ t, step s = .next t) ∧ ∀ (e : Event) (s : State), ∃ t, apply e s = .next t

/-- R105: the value of `PC` after a step, for every outcome. -/
def Obligations.NextPcFollowsTheSequencerTable : Prop :=
  ∀ s t : State, step s = .next t →
    (s.flt ≠ .noFault → t.pc = s.pc) ∧
    (s.flt = .noFault → t.flt ≠ .noFault → t.pc = s.pc) ∧
    (s.flt = .noFault → t.flt = .noFault →
      (∃ op, s.fetch = some op ∧ decodeWord op = .error (.unknownOpcode op) ∧ t.pc = s.pcn) ∨
      ∃ i, executes s i ∧ sequencer i s t.pc)

/-- R222: a step that latches a fault has no other effect at all. -/
def Obligations.FaultsArePrecise : Prop :=
  ∀ s t : State, step s = .next t → s.flt = .noFault → t.flt ≠ .noFault → t = { s with flt := t.flt }

/-- R221: the four causes, their codes, and exactly when each is latched. -/
def Obligations.FaultsAreLatchedExactlyWhenTheTableSays : Prop :=
  (Cause.noFault.code.toNat = 0 ∧ Cause.stackOverflow.code.toNat = 1 ∧ Cause.stackUnderflow.code.toNat = 2 ∧
    Cause.addressRange.code.toNat = 3 ∧ Cause.keyIndex.code.toNat = 4) ∧
  ∀ s t : State, s.flt = .noFault → step s = .next t →
    (t.flt = .stackOverflow ↔ (∃ nnn, executes s (.call nnn)) ∧ s.sp.val = 16) ∧
    (t.flt = .stackUnderflow ↔ executes s .ret ∧ s.sp.val = 0) ∧
    (t.flt = .addressRange ↔ 0xFFE < s.pc.toNat ∨
      (∃ x y n, executes s (.drw x y n) ∧ 0 < n.val ∧ 0xFFF < s.i.toNat + n.val - 1) ∨
      (∃ x, executes s (.ldB x) ∧ 0xFFF < s.i.toNat + 2) ∨
      (∃ x, (executes s (.stRegs x) ∨ executes s (.ldRegs x)) ∧ 0xFFF < s.i.toNat + x.val)) ∧
    (t.flt = .keyIndex ↔ ∃ x, (executes s (.skp x) ∨ executes s (.sknp x)) ∧ 15 < (s.getV x).toNat) ∧
    (t.flt ≠ .noFault → t = { s with flt := t.flt })

/-- The spec's own derivation R107, first half: what a step never does to the keys, `CHG`, `FLT` and the timers. -/
def Obligations.StepNeverWritesTheHostsState : Prop :=
  ∀ s t : State, step s = .next t →
    (∀ k : Key, t.keyDown k = s.keyDown k) ∧ (s.chg = true → t.chg = true) ∧
    (s.flt ≠ .noFault → t.flt = s.flt) ∧
    (t.dt ≠ s.dt → ∃ x, executes s (.ldDT x)) ∧ (t.st ≠ s.st → ∃ x, executes s (.ldST x))

/-- The spec's own derivation R107, second half, as noninterference: the random input, the timers, the keys and `CHG`
change nothing of an instruction that the spec does not give them to read, but themselves. -/
def Obligations.UnreadStateDoesNotMatter : Prop :=
  ∀ (i : Instr) (s t : State), exec i s = .next t →
    ((∀ x nn, i ≠ .rnd x nn) → ∀ r d, exec i { s with rndIn := r, draws := d } = .next { t with rndIn := r, draws := d }) ∧
    ((∀ x, i ≠ .ldVxDT x) → (∀ x, i ≠ .ldDT x) → ∀ b, exec i { s with dt := b } = .next { t with dt := b }) ∧
    ((∀ x, i ≠ .ldST x) → ∀ b, exec i { s with st := b } = .next { t with st := b }) ∧
    ((∀ x, i ≠ .skp x) → (∀ x, i ≠ .sknp x) → (∀ x, i ≠ .ldVxK x) →
      ∀ ks, exec i { s with key := ks } = .next { t with key := ks }) ∧
    (i ≠ .cls → (∀ x y n, i ≠ .drw x y n) → ∀ c, exec i { s with chg := c } = .next { t with chg := c })

/-- The column 'written by' of spec/10_state.md section 1: only the named instructions change `I`, the stack, `SP`, the
display, `CHG`, the timers, the keys, memory and the random input. -/
def Obligations.OnlyTheNamedInstructionsWriteEachPart : Prop :=
  ∀ (i : Instr) (s t : State), exec i s = .next t →
    (t.i ≠ s.i → (∃ nnn, i = .ldI nnn) ∨ (∃ x, i = .addI x) ∨ (∃ x, i = .ldF x) ∨ (∃ x, i = .stRegs x) ∨
      ∃ x, i = .ldRegs x) ∧
    (t.stack ≠ s.stack → ∃ nnn, i = .call nnn) ∧
    (t.sp ≠ s.sp → (∃ nnn, i = .call nnn) ∨ i = .ret) ∧
    (t.fb ≠ s.fb → i = .cls ∨ ∃ x y n, i = .drw x y n) ∧
    (t.chg ≠ s.chg → i = .cls ∨ ∃ x y n, i = .drw x y n) ∧
    (t.dt ≠ s.dt → ∃ x, i = .ldDT x) ∧ (t.st ≠ s.st → ∃ x, i = .ldST x) ∧ t.key = s.key ∧
    (t.mem ≠ s.mem → (∃ x, i = .ldB x) ∨ ∃ x, i = .stRegs x) ∧
    ((t.rndIn, t.draws) ≠ (s.rndIn, s.draws) → ∃ x nn, i = .rnd x nn)

/-- spec/10_state.md section 3 (R22): an instruction that changes VF is one of the six flag writers, or has VF among
the destinations its encoding names. -/
def Obligations.OnlyFlagWritersAndNamedDestinationsChangeVf : Prop :=
  ∀ (i : Instr) (s t : State), exec i s = .next t → t.getV Reg.vf ≠ s.getV Reg.vf →
    (∃ x y, i = .addReg x y ∨ i = .subReg x y ∨ i = .shr x y ∨ i = .subn x y ∨ i = .shl x y) ∨
    (∃ x y n, i = .drw x y n) ∨
    (∃ nn, i = .ldImm Reg.vf nn ∨ i = .addImm Reg.vf nn ∨ i = .rnd Reg.vf nn) ∨
    (∃ y, i = .ldReg Reg.vf y ∨ i = .orReg Reg.vf y ∨ i = .andReg Reg.vf y ∨ i = .xorReg Reg.vf y) ∨
    i = .ldVxDT Reg.vf ∨ i = .ldVxK Reg.vf ∨ i = .ldRegs Reg.vf

/-- spec/10_state.md section 3 (R22): each flag writer leaves 0 or 1 in VF on every execution that does not fault. -/
def Obligations.FlagWritersLeaveZeroOrOne : Prop :=
  ∀ (i : Instr) (s t : State), exec i s = .next t → t.flt = .noFault → s.flt = .noFault →
    ((∃ x y, i = .addReg x y ∨ i = .subReg x y ∨ i = .shr x y ∨ i = .subn x y ∨ i = .shl x y) ∨
      ∃ x y n, i = .drw x y n) →
    t.getV Reg.vf = 0 ∨ t.getV Reg.vf = 1

/-! ## Invariants (spec/10_state.md section 12) -/

/-- The reset state meets the invariant. -/
def Obligations.ResetMeetsTheInvariant : Prop := Inv State.reset

/-- Every step keeps the invariant: memory in canonical form, `PC` at most 0x10FE, stack entries at most 0x1000 (the
spec's own derivation R38; the form of memory is the model's, log entry 2). -/
def Obligations.StepKeepsTheInvariant : Prop :=
  ∀ s t : State, Inv s → step s = .next t → Inv t

/-- Every event the host can issue keeps the invariant. -/
def Obligations.EveryEventKeepsTheInvariant : Prop :=
  ∀ (e : Event) (s t : State), Inv s → apply e s = .next t → Inv t

/-- The spec's own derivation R38, over every sequence of events from power-on. It follows by induction from
ResetMeetsTheInvariant and EveryEventKeepsTheInvariant; its bounds on `SP` and `FLT` hold by the types `Fin 17` and `Cause`
alone, which are the model's (log entry 10), as the canonical form of memory is (log entry 2). -/
def Obligations.ReachableStatesAreLegal : Prop :=
  ∀ (es : List Event) (t : State), runEvents es State.reset = .next t →
    t.sp.val ≤ 16 ∧ t.flt.code.toNat ≤ 4 ∧ t.pc.toNat ≤ 0x10FE ∧
    (∀ j : Fin 16, j.val < t.sp.val → t.stack[j].toNat ≤ 0x1000) ∧ Memory.wf t.mem

/-! ## Encoding (spec/30_encoding.md) -/

/-- Decoding the two bytes of an encoded instruction, whatever bytes follow, gives it back with every operand. -/
def Obligations.DecodeOfEncodeIsTheInstruction : Prop :=
  ∀ (i : Instr) (rest : List Byte), i.wellFormed = true → decode (bytesOfWord (encode i) ++ rest) = .ok (i, rest)

/-- R83: a word is the instruction of the one row of R86 it matches, with the fields at their places, and an unknown
opcode if it matches none. -/
def Obligations.DecodeFollowsTheOpcodeTable : Prop :=
  ∀ op : Word,
    (∀ r ∈ opcodeTable, r.matches op = true → ∃ i, decodeWord op = .ok i ∧ rowOf i = r) ∧
    (∀ i, decodeWord op = .ok i → encode i = op ∧ rowOf i ∈ opcodeTable ∧ (rowOf i).matches op = true ∧
      ∀ r ∈ opcodeTable, r.matches op = true → r = rowOf i) ∧
    ((∀ r ∈ opcodeTable, r.matches op = false) → decodeWord op = .error (.unknownOpcode op))

/-- Words written out from the spec decode to the instruction they stand for: D00's own four (spec/95_test_vectors.md
S10) and one of each family. -/
def Obligations.WrittenOutWordsDecode : Prop :=
  decodeWord 0x6005#16 = .ok (.ldImm 0 0x05) ∧ decodeWord 0x7003#16 = .ok (.addImm 0 0x03) ∧
  decodeWord 0x00E0#16 = .ok .cls ∧ decodeWord 0xF00A#16 = .ok (.ldVxK 0) ∧
  decodeWord 0xD125#16 = .ok (.drw 1 2 5) ∧ decodeWord 0x2210#16 = .ok (.call 0x210) ∧
  decodeWord 0x8236#16 = .ok (.shr 2 3) ∧ decodeWord 0xF265#16 = .ok (.ldRegs 2) ∧
  decodeWord 0xE3A1#16 = .ok (.sknp 3) ∧ decodeWord 0xC10F#16 = .ok (.rnd 1 0x0F) ∧
  decodeWord 0x5001#16 = .error (.unknownOpcode 0x5001#16)

/-! ## Display (spec/41_display.md) -/

/-- R120: CLS. -/
def Obligations.ClearDisplay : Prop :=
  ∀ s : State, (encode .cls).toNat = 0x00E0 ∧
    ∃ t, exec .cls s = .next t ∧ (∀ px py : Nat, t.fb.pixel px py = false) ∧ t.chg = true ∧ t.pc = s.pc + 2 ∧
      sameBut [.display, .changed, .counter] s t

/-- R121 (the loops, as the spec's own derivation R123 (a), (b), (d) to (g) closes them): the clipped sprite is XORed in
and VF says whether a set bit fell on a set pixel; `CHG` is always raised; or the whole range does not fit and the fault
alone is latched. -/
def Obligations.DrawXorsTheClippedSprite : Prop :=
  ∀ (s : State) (x y : Reg) (n : Height),
    (encode (.drw x y n)).toNat = 0xD000 + 256 * x.val + 16 * y.val + n.val ∧
    ((n.val = 0 ∨ s.i.toNat + (n.val - 1) ≤ 0xFFF) →
      ∃ t, exec (.drw x y n) s = .next t ∧
        (∀ px py : Nat, px < 64 → py < 32 → t.fb.pixel px py = (s.fb.pixel px py ^^ spriteBit s x y n px py)) ∧
        ((∃ px py : Nat, px < 64 ∧ py < 32 ∧ s.fb.pixel px py = true ∧ spriteBit s x y n px py = true) →
          t.getV Reg.vf = 1) ∧
        ((∀ px py : Nat, px < 64 → py < 32 → s.fb.pixel px py = true → spriteBit s x y n px py = false) →
          t.getV Reg.vf = 0) ∧
        t.chg = true ∧ regsBut [Reg.vf] s t ∧ t.pc = s.pc + 2 ∧ sameBut [.regs, .display, .changed, .counter] s t) ∧
    (0 < n.val → 0xFFF < s.i.toNat + (n.val - 1) → exec (.drw x y n) s = .next { s with flt := .addressRange })

/-- R123 (c), corrected (log entry 27): drawing the same sprite at the same origin twice restores the display, and the
second draw collides iff some sprite bit fell on a pixel that was clear before the first. -/
def Obligations.DrawingTwiceRestoresTheDisplay : Prop :=
  ∀ (s : State) (x y : Reg) (n : Height), (n.val = 0 ∨ s.i.toNat + (n.val - 1) ≤ 0xFFF) →
    ∃ t, exec (.drw x y n) s = .next t ∧
      ∀ u : State, u.i = s.i → u.mem = s.mem → u.getV x = s.getV x → u.getV y = s.getV y → u.fb = t.fb →
        ∃ w, exec (.drw x y n) u = .next w ∧ (∀ px py : Nat, w.fb.pixel px py = s.fb.pixel px py) ∧
          (w.getV Reg.vf = 1 ↔
            ∃ px py : Nat, px < 64 ∧ py < 32 ∧ s.fb.pixel px py = false ∧ spriteBit s x y n px py = true)

/-- R123 (c) as its words stand: the second draw sets VF iff the sprite has a set, in-bounds bit. It FAILS where the
display was already set under the sprite (log entry 27). -/
def Obligations.SecondDrawCollidesIffTheSpriteHasABit : Prop :=
  ∀ (s t u w : State) (x y : Reg) (n : Height), exec (.drw x y n) s = .next t → t.flt = .noFault →
    u.i = s.i → u.mem = s.mem → u.getV x = s.getV x → u.getV y = s.getV y → u.fb = t.fb →
    exec (.drw x y n) u = .next w →
    (w.getV Reg.vf = 1 ↔ ∃ px py : Nat, px < 64 ∧ py < 32 ∧ spriteBit s x y n px py = true)

/-- R123 (c) as its words stand, on every display on which it agrees with R121 (log entry 27), the empty display of the
source's own property (spec/95_test_vectors.md S3) among them: the sprite has no set, in-bounds bit, or one of them falls on
a pixel that was clear before the first draw. -/
def Obligations.SecondDrawCollidesUnlessAllWasSetUnderTheSprite : Prop :=
  ∀ (s : State) (x y : Reg) (n : Height), (n.val = 0 ∨ s.i.toNat + (n.val - 1) ≤ 0xFFF) →
    ((∀ px py : Nat, px < 64 → py < 32 → spriteBit s x y n px py = false) ∨
      ∃ px py : Nat, px < 64 ∧ py < 32 ∧ s.fb.pixel px py = false ∧ spriteBit s x y n px py = true) →
    ∃ t, exec (.drw x y n) s = .next t ∧
      ∀ u : State, u.i = s.i → u.mem = s.mem → u.getV x = s.getV x → u.getV y = s.getV y → u.fb = t.fb →
        ∃ w, exec (.drw x y n) u = .next w ∧ (∀ px py : Nat, w.fb.pixel px py = s.fb.pixel px py) ∧
          (w.getV Reg.vf = 1 ↔ ∃ px py : Nat, px < 64 ∧ py < 32 ∧ spriteBit s x y n px py = true)

/-! ## Control transfer (spec/42_control_transfer.md) -/

/-- R131: RET pops the entry last pushed, or faults on an empty stack. -/
def Obligations.ReturnPopsTheStack : Prop :=
  ∀ s : State, (encode .ret).toNat = 0x00EE ∧
    (∀ j : Fin 16, s.sp.val = j.val + 1 →
      ∃ t, exec .ret s = .next t ∧ t.sp.val = j.val ∧ t.pc = s.stack[j] ∧ sameBut [.pointer, .counter] s t) ∧
    (s.sp.val = 0 → exec .ret s = .next { s with flt := .stackUnderflow })

/-- R132 and R138: the two jumps. -/
def Obligations.JumpsInstallTheirTarget : Prop :=
  ∀ (s : State) (nnn : Imm12),
    (encode (.jp nnn)).toNat = 0x1000 + nnn.toNat ∧ (encode (.jpV0 nnn)).toNat = 0xB000 + nnn.toNat ∧
    (∃ t, exec (.jp nnn) s = .next t ∧ t.pc.toNat = nnn.toNat ∧ sameBut [.counter] s t) ∧
    (∃ t, exec (.jpV0 nnn) s = .next t ∧ t.pc.toNat = nnn.toNat + (s.getV 0).toNat ∧ sameBut [.counter] s t)

/-- R133: CALL pushes the address after it, or faults with sixteen calls outstanding. -/
def Obligations.CallPushesTheReturnAddress : Prop :=
  ∀ (s : State) (nnn : Imm12), (encode (.call nnn)).toNat = 0x2000 + nnn.toNat ∧
    (s.sp.val < 16 →
      ∃ t, exec (.call nnn) s = .next t ∧ t.pc.toNat = nnn.toNat ∧ t.sp.val = s.sp.val + 1 ∧
        (∀ j : Fin 16, t.stack[j] = if j.val = s.sp.val then s.pc + 2 else s.stack[j]) ∧
        sameBut [.counter, .stack, .pointer] s t) ∧
    (s.sp.val = 16 → exec (.call nnn) s = .next { s with flt := .stackOverflow })

/-- R131 and R133 together: from any state that keeps the call's stack, RET comes back to the address after the CALL
and to its stack depth. -/
def Obligations.CallThenReturnComesBack : Prop :=
  ∀ (s : State) (nnn : Imm12), s.sp.val < 16 →
    ∃ t, exec (.call nnn) s = .next t ∧
      ∀ u : State, u.stack = t.stack → u.sp = t.sp → ∃ w, exec .ret u = .next w ∧ w.pc = s.pc + 2 ∧ w.sp = s.sp

/-- R134 and R135: the skips on an immediate. -/
def Obligations.SkipsOnImmediate : Prop :=
  ∀ (s : State) (x : Reg) (nn : Byte),
    (encode (.seImm x nn)).toNat = 0x3000 + 256 * x.val + nn.toNat ∧
    (encode (.sneImm x nn)).toNat = 0x4000 + 256 * x.val + nn.toNat ∧
    (∃ t, exec (.seImm x nn) s = .next t ∧ (s.getV x = nn → t.pc = s.pc + 4) ∧ (s.getV x ≠ nn → t.pc = s.pc + 2) ∧
      sameBut [.counter] s t) ∧
    (∃ t, exec (.sneImm x nn) s = .next t ∧ (s.getV x ≠ nn → t.pc = s.pc + 4) ∧ (s.getV x = nn → t.pc = s.pc + 2) ∧
      sameBut [.counter] s t)

/-- R136 and R137: the skips on two registers; with other low digits the word is an unknown opcode. -/
def Obligations.SkipsOnRegisters : Prop :=
  (∀ op : Word, (op.toNat / 4096 = 5 ∨ op.toNat / 4096 = 9) → op.toNat % 16 ≠ 0 →
    decodeWord op = .error (.unknownOpcode op)) ∧
  ∀ (s : State) (x y : Reg),
    (encode (.seReg x y)).toNat = 0x5000 + 256 * x.val + 16 * y.val ∧
    (encode (.sneReg x y)).toNat = 0x9000 + 256 * x.val + 16 * y.val ∧
    (∃ t, exec (.seReg x y) s = .next t ∧ (s.getV x = s.getV y → t.pc = s.pc + 4) ∧
      (s.getV x ≠ s.getV y → t.pc = s.pc + 2) ∧ sameBut [.counter] s t) ∧
    (∃ t, exec (.sneReg x y) s = .next t ∧ (s.getV x ≠ s.getV y → t.pc = s.pc + 4) ∧
      (s.getV x = s.getV y → t.pc = s.pc + 2) ∧ sameBut [.counter] s t)

/-! ## Registers, arithmetic, logic (spec/43_register_alu.md) -/

/-- R151: load immediate. -/
def Obligations.LoadImmediate : Prop :=
  ∀ (s : State) (x : Reg) (nn : Byte), (encode (.ldImm x nn)).toNat = 0x6000 + 256 * x.val + nn.toNat ∧
    ∃ t, exec (.ldImm x nn) s = .next t ∧ t.getV x = nn ∧ regsBut [x] s t ∧ t.pc = s.pc + 2 ∧
      sameBut [.regs, .counter] s t

/-- R152: add immediate, modulo 256, no flag. -/
def Obligations.AddImmediate : Prop :=
  ∀ (s : State) (x : Reg) (nn : Byte), (encode (.addImm x nn)).toNat = 0x7000 + 256 * x.val + nn.toNat ∧
    ∃ t, exec (.addImm x nn) s = .next t ∧ (t.getV x).toNat = ((s.getV x).toNat + nn.toNat) % 256 ∧ regsBut [x] s t ∧
      t.pc = s.pc + 2 ∧ sameBut [.regs, .counter] s t

/-- R153 to R156: assign, OR, AND, XOR, bit by bit, no flag. -/
def Obligations.CopyAndLogic : Prop :=
  ∀ (s : State) (x y : Reg),
    ((encode (.ldReg x y)).toNat = 0x8000 + 256 * x.val + 16 * y.val ∧
      (encode (.orReg x y)).toNat = 0x8001 + 256 * x.val + 16 * y.val ∧
      (encode (.andReg x y)).toNat = 0x8002 + 256 * x.val + 16 * y.val ∧
      (encode (.xorReg x y)).toNat = 0x8003 + 256 * x.val + 16 * y.val) ∧
    (∃ t, exec (.ldReg x y) s = .next t ∧ t.getV x = s.getV y ∧ regsBut [x] s t ∧ t.pc = s.pc + 2 ∧
      sameBut [.regs, .counter] s t) ∧
    (∃ t, exec (.orReg x y) s = .next t ∧
      (∀ k, (t.getV x).getLsbD k = ((s.getV x).getLsbD k || (s.getV y).getLsbD k)) ∧ regsBut [x] s t ∧
      t.pc = s.pc + 2 ∧ sameBut [.regs, .counter] s t) ∧
    (∃ t, exec (.andReg x y) s = .next t ∧
      (∀ k, (t.getV x).getLsbD k = ((s.getV x).getLsbD k && (s.getV y).getLsbD k)) ∧ regsBut [x] s t ∧
      t.pc = s.pc + 2 ∧ sameBut [.regs, .counter] s t) ∧
    (∃ t, exec (.xorReg x y) s = .next t ∧
      (∀ k, (t.getV x).getLsbD k = ((s.getV x).getLsbD k ^^ (s.getV y).getLsbD k)) ∧ regsBut [x] s t ∧
      t.pc = s.pc + 2 ∧ sameBut [.regs, .counter] s t)

/-- R157: add with carry out; with `x = 0xF` the flag is what VF ends as. -/
def Obligations.AddRegistersWithCarry : Prop :=
  ∀ (s : State) (x y : Reg), (encode (.addReg x y)).toNat = 0x8004 + 256 * x.val + 16 * y.val ∧
    ∃ t, exec (.addReg x y) s = .next t ∧
      (x ≠ Reg.vf → (t.getV x).toNat = ((s.getV x).toNat + (s.getV y).toNat) % 256) ∧
      (t.getV Reg.vf).toNat = (if 255 < (s.getV x).toNat + (s.getV y).toNat then 1 else 0) ∧
      regsBut [x, Reg.vf] s t ∧ t.pc = s.pc + 2 ∧ sameBut [.regs, .counter] s t

/-- R158 and R160: subtract and subtract reversed; the flag is 1 iff no borrow occurs. -/
def Obligations.SubtractRegistersBothWays : Prop :=
  ∀ (s : State) (x y : Reg),
    ((encode (.subReg x y)).toNat = 0x8005 + 256 * x.val + 16 * y.val ∧
      ∃ t, exec (.subReg x y) s = .next t ∧
        (x ≠ Reg.vf → (t.getV x).toNat = (256 + (s.getV x).toNat - (s.getV y).toNat) % 256) ∧
        (t.getV Reg.vf).toNat = (if (s.getV y).toNat ≤ (s.getV x).toNat then 1 else 0) ∧
        regsBut [x, Reg.vf] s t ∧ t.pc = s.pc + 2 ∧ sameBut [.regs, .counter] s t) ∧
    ((encode (.subn x y)).toNat = 0x8007 + 256 * x.val + 16 * y.val ∧
      ∃ t, exec (.subn x y) s = .next t ∧
        (x ≠ Reg.vf → (t.getV x).toNat = (256 + (s.getV y).toNat - (s.getV x).toNat) % 256) ∧
        (t.getV Reg.vf).toNat = (if (s.getV x).toNat ≤ (s.getV y).toNat then 1 else 0) ∧
        regsBut [x, Reg.vf] s t ∧ t.pc = s.pc + 2 ∧ sameBut [.regs, .counter] s t)

/-- R159 and R161: the shifts by one move `V[x]` for every value of the field `y`; the flag is the bit shifted out. -/
def Obligations.ShiftsMoveVxAndIgnoreY : Prop :=
  ∀ (s : State) (x y : Reg),
    ((encode (.shr x y)).toNat = 0x8006 + 256 * x.val + 16 * y.val ∧
      ∃ t, exec (.shr x y) s = .next t ∧ (x ≠ Reg.vf → (t.getV x).toNat = (s.getV x).toNat / 2) ∧
        (t.getV Reg.vf).toNat = (s.getV x).toNat % 2 ∧
        regsBut [x, Reg.vf] s t ∧ t.pc = s.pc + 2 ∧ sameBut [.regs, .counter] s t) ∧
    ((encode (.shl x y)).toNat = 0x800E + 256 * x.val + 16 * y.val ∧
      ∃ t, exec (.shl x y) s = .next t ∧ (x ≠ Reg.vf → (t.getV x).toNat = 2 * (s.getV x).toNat % 256) ∧
        (t.getV Reg.vf).toNat = (s.getV x).toNat / 128 ∧
        regsBut [x, Reg.vf] s t ∧ t.pc = s.pc + 2 ∧ sameBut [.regs, .counter] s t)

/-- R170: a random byte under the mask. The byte is the one the host supplied, where it named one; nothing else is said
of it (where none is named it is a free value: log entry 3). -/
def Obligations.RandomByteUnderMask : Prop :=
  ∀ (s : State) (x : Reg) (nn : Byte), (encode (.rnd x nn)).toNat = 0xC000 + 256 * x.val + nn.toNat ∧
    ∃ (t : State) (r : Byte), exec (.rnd x nn) s = .next t ∧ (∀ b, s.rndIn = some b → r = b) ∧
      t.getV x = r &&& nn ∧ t.getV x &&& ~~~nn = 0 ∧ regsBut [x] s t ∧ t.pc = s.pc + 2 ∧
      sameBut [.regs, .counter, .random] s t

/-! ## Index register and memory (spec/44_index_memory.md) -/

/-- R180, R181, R182: the three instructions that set `I`. -/
def Obligations.SettingTheIndexRegister : Prop :=
  ∀ (s : State) (nnn : Imm12) (x : Reg),
    ((encode (.ldI nnn)).toNat = 0xA000 + nnn.toNat ∧
      ∃ t, exec (.ldI nnn) s = .next t ∧ t.i.toNat = nnn.toNat ∧ t.pc = s.pc + 2 ∧ sameBut [.index, .counter] s t) ∧
    ((encode (.addI x)).toNat = 0xF01E + 256 * x.val ∧
      ∃ t, exec (.addI x) s = .next t ∧ t.i.toNat = (s.i.toNat + (s.getV x).toNat) % 0x10000 ∧ t.pc = s.pc + 2 ∧
        sameBut [.index, .counter] s t) ∧
    ((encode (.ldF x)).toNat = 0xF029 + 256 * x.val ∧
      ∃ t, exec (.ldF x) s = .next t ∧ t.i.toNat = 0x50 + 5 * ((s.getV x).toNat % 16) ∧ t.pc = s.pc + 2 ∧
        sameBut [.index, .counter] s t)

/-- R183: the three decimal digits at `I`, `I + 1`, `I + 2`, every other byte as before; or the fault and nothing
stored. The premise on memory is part of the invariant `Inv`, which StepKeepsTheInvariant states. -/
def Obligations.StoreDecimalDigits : Prop :=
  ∀ (s : State) (x : Reg), (encode (.ldB x)).toNat = 0xF033 + 256 * x.val ∧
    (Memory.wf s.mem → s.i.toNat + 2 ≤ 0xFFF →
      ∃ t, exec (.ldB x) s = .next t ∧
        Memory.read t.mem s.i.toNat = some (BitVec.ofNat 8 ((s.getV x).toNat / 100)) ∧
        Memory.read t.mem (s.i.toNat + 1) = some (BitVec.ofNat 8 ((s.getV x).toNat / 10 % 10)) ∧
        Memory.read t.mem (s.i.toNat + 2) = some (BitVec.ofNat 8 ((s.getV x).toNat % 10)) ∧
        memoryBut s.i.toNat 3 s t ∧ t.pc = s.pc + 2 ∧ sameBut [.memory, .counter] s t) ∧
    (0xFFF < s.i.toNat + 2 → exec (.ldB x) s = .next { s with flt := .addressRange })

/-- R184: `V[0..x]` stored at `I .. I+x`, every other byte as before, `I` moved past them; or the fault and nothing
stored. -/
def Obligations.StoreRegistersMovesTheIndex : Prop :=
  ∀ (s : State) (x : Reg), (encode (.stRegs x)).toNat = 0xF055 + 256 * x.val ∧
    (Memory.wf s.mem → s.i.toNat + x.val ≤ 0xFFF →
      ∃ t, exec (.stRegs x) s = .next t ∧
        (∀ k : Reg, k ≤ x → Memory.read t.mem (s.i.toNat + k.val) = some (s.getV k)) ∧
        memoryBut s.i.toNat (x.val + 1) s t ∧ t.i.toNat = s.i.toNat + x.val + 1 ∧ t.pc = s.pc + 2 ∧
        sameBut [.memory, .index, .counter] s t) ∧
    (0xFFF < s.i.toNat + x.val → exec (.stRegs x) s = .next { s with flt := .addressRange })

/-- R185: `V[0..x]` loaded from `I .. I+x`, the other registers as before, `I` moved past them; or the fault and no
register written. -/
def Obligations.LoadRegistersMovesTheIndex : Prop :=
  ∀ (s : State) (x : Reg), (encode (.ldRegs x)).toNat = 0xF065 + 256 * x.val ∧
    (s.i.toNat + x.val ≤ 0xFFF →
      ∃ t, exec (.ldRegs x) s = .next t ∧
        (∀ k : Reg, k ≤ x → Memory.read s.mem (s.i.toNat + k.val) = some (t.getV k)) ∧
        (∀ k : Reg, x < k → t.getV k = s.getV k) ∧ t.i.toNat = s.i.toNat + x.val + 1 ∧ t.pc = s.pc + 2 ∧
        sameBut [.regs, .index, .counter] s t) ∧
    (0xFFF < s.i.toNat + x.val → exec (.ldRegs x) s = .next { s with flt := .addressRange })

/-- The corner case of R185: `Fx55`, `I` set back, `Fx65` restores `V[0..x]` whatever the registers held in between. -/
def Obligations.StoreThenLoadRestoresTheRegisters : Prop :=
  ∀ (s : State) (x : Reg) (v : Vector Byte 16), Memory.wf s.mem → s.i.toNat + x.val ≤ 0xFFF →
    ∃ t u, exec (.stRegs x) s = .next t ∧ exec (.ldRegs x) { t with i := s.i, v := v } = .next u ∧
      (∀ k : Reg, k ≤ x → u.getV k = s.getV k) ∧ (∀ k : Reg, x < k → u.getV k = v[k]) ∧ u.i = t.i

/-- spec/20_memory.md section 9 (R73): a step that runs `Fx55` or `Fx33` completes as the instruction it fetched, even
where it stores over its own bytes, and what it stored is what the next fetch reads, and every later one that no other
store precedes, at any address: each of the two fetched bytes is the stored one if the stored range covers it and the old
one if not. The premise on memory is part of the invariant `Inv`, which StepKeepsTheInvariant states. -/
def Obligations.StoredBytesAreFetchedNext : Prop :=
  ∀ (s : State) (x : Reg), Memory.wf s.mem →
    (executes s (.stRegs x) → s.i.toNat + x.val ≤ 0xFFF →
      ∃ t, step s = .next t ∧ t.pc = s.pc + 2 ∧ t.i.toNat = s.i.toNat + x.val + 1 ∧
        ∀ u : State, u.mem = t.mem → u.pc.toNat ≤ 0xFFE →
          u.fetch = some (wordAfterStore s (x.val + 1) (fun k => s.getV (Fin.ofNat 16 k)) u.pc.toNat)) ∧
    (executes s (.ldB x) → s.i.toNat + 2 ≤ 0xFFF →
      ∃ t, step s = .next t ∧ t.pc = s.pc + 2 ∧ t.i = s.i ∧
        ∀ u : State, u.mem = t.mem → u.pc.toNat ≤ 0xFFE →
          u.fetch = some (wordAfterStore s 3 (fun k => BitVec.ofNat 8
            (if k = 0 then (s.getV x).toNat / 100 else if k = 1 then (s.getV x).toNat / 10 % 10
              else (s.getV x).toNat % 10)) u.pc.toNat))

/-! ## Keys and timers (spec/45_keys_timers.md) -/

/-- R200 and R201: the key skips, and their fault above index 15. -/
def Obligations.SkipsOnKey : Prop :=
  ∀ (s : State) (x : Reg),
    (encode (.skp x)).toNat = 0xE09E + 256 * x.val ∧ (encode (.sknp x)).toNat = 0xE0A1 + 256 * x.val ∧
    (∀ k : Key, (s.getV x).toNat = k.val →
      (∃ t, exec (.skp x) s = .next t ∧ t.pc = (if s.keyDown k then s.pc + 4 else s.pc + 2) ∧ sameBut [.counter] s t) ∧
      (∃ t, exec (.sknp x) s = .next t ∧ t.pc = (if s.keyDown k then s.pc + 2 else s.pc + 4) ∧
        sameBut [.counter] s t)) ∧
    (15 < (s.getV x).toNat → exec (.skp x) s = .next { s with flt := .keyIndex } ∧
      exec (.sknp x) s = .next { s with flt := .keyIndex })

/-- R202, R204, R205: reading `DT`, writing `DT` and `ST`; `sound_active` follows at once. -/
def Obligations.TimerAccess : Prop :=
  ∀ (s : State) (x : Reg),
    ((encode (.ldVxDT x)).toNat = 0xF007 + 256 * x.val ∧
      ∃ t, exec (.ldVxDT x) s = .next t ∧ t.getV x = s.dt ∧ regsBut [x] s t ∧ t.pc = s.pc + 2 ∧
        sameBut [.regs, .counter] s t) ∧
    ((encode (.ldDT x)).toNat = 0xF015 + 256 * x.val ∧
      ∃ t, exec (.ldDT x) s = .next t ∧ t.dt = s.getV x ∧ t.pc = s.pc + 2 ∧ sameBut [.delay, .counter] s t) ∧
    ((encode (.ldST x)).toNat = 0xF018 + 256 * x.val ∧
      ∃ t, exec (.ldST x) s = .next t ∧ t.st = s.getV x ∧ (t.soundActive = true ↔ s.getV x ≠ 0) ∧ t.pc = s.pc + 2 ∧
        sameBut [.sound, .counter] s t)

/-- R203: with no key pressed no state changes at all; else the highest pressed index. -/
def Obligations.WaitForKeyTakesTheHighest : Prop :=
  ∀ (s : State) (x : Reg), (encode (.ldVxK x)).toNat = 0xF00A + 256 * x.val ∧
    ((∀ k : Key, s.keyDown k = false) → exec (.ldVxK x) s = .next s) ∧
    ∀ k : Key, s.keyDown k = true → (∀ j : Key, s.keyDown j = true → j ≤ k) →
      ∃ t, exec (.ldVxK x) s = .next t ∧ (t.getV x).toNat = k.val ∧ regsBut [x] s t ∧ t.pc = s.pc + 2 ∧
        sameBut [.regs, .counter] s t

/-! ## The host's events (spec/10_state.md section 13, spec/60_exceptions.md, spec/70_reset_and_hazards.md) -/

/-- R36 and R260: in every state `reset` succeeds, sets every piece of state (`FONT` is the parameter, whatever its
bytes) and is idempotent; the state at power-on has the same values. -/
def Obligations.ResetSetsEveryPiece : Prop :=
  ∀ s : State, ∃ t, apply .reset s = .next t ∧ apply .reset t = .next t ∧ ∀ u : State, (u = t ∨ u = State.reset) →
    (∀ r : Reg, u.getV r = 0) ∧ u.i = 0x0000 ∧ u.pc = 0x0200 ∧ (∀ j : Fin 16, u.stack[j] = 0x0000) ∧ u.sp.val = 0 ∧
    u.dt = 0 ∧ u.st = 0 ∧ u.soundActive = false ∧ (∀ px py : Nat, u.fb.pixel px py = false) ∧ u.chg = false ∧
    (∀ k : Key, u.keyDown k = false) ∧ u.flt = .noFault ∧
    (∀ a : Nat, 0x050 ≤ a → a ≤ 0x09F → Memory.read u.mem a = some (Config.font.getD (a - 0x050) 0)) ∧
    ∀ a : Nat, a < 0x050 ∨ 0x09F < a → a < 4096 → Memory.read u.mem a = some 0

/-- R262 and R263: `load` resets and copies the image to 0x200 upward, or reports a too long image and changes
nothing. -/
def Obligations.LoadCopiesTheImageOrChangesNothing : Prop :=
  ∀ (img : List Byte) (s : State),
    (img.length ≤ 3584 → loadReport img = .success ∧
      ∃ r t, apply .reset s = .next r ∧ apply (.load img) s = .next t ∧ t = { r with mem := t.mem } ∧
        (∀ k : Nat, k < img.length → Memory.read t.mem (0x200 + k) = some (img.getD k 0)) ∧
        ∀ a : Nat, a < 0x200 ∨ 0x200 + img.length ≤ a → Memory.read t.mem a = Memory.read r.mem a) ∧
    (3584 < img.length → loadReport img = .imageTooLarge ∧ apply (.load img) s = .next s)

/-- R240: one tick. -/
def Obligations.TickCountsBothTimersDown : Prop :=
  ∀ s : State, ∃ t, apply .tick s = .next t ∧
    (0 < s.dt.toNat → t.dt.toNat + 1 = s.dt.toNat) ∧ (s.dt.toNat = 0 → t.dt.toNat = 0) ∧
    (0 < s.st.toNat → t.st.toNat + 1 = s.st.toNat) ∧ (s.st.toNat = 0 → t.st.toNat = 0) ∧
    sameBut [.delay, .sound] s t

/-- The spec's own derivation R241: after `n` ticks each timer is its start less `n`, floored at 0. -/
def Obligations.TicksFloorAtZero : Prop :=
  ∀ (n : Nat) (s : State), ∃ t, runEvents (List.replicate n .tick) s = .next t ∧
    t.dt.toNat = s.dt.toNat - n ∧ t.st.toNat = s.st.toNat - n

/-- R45 and R46: `key_set` and `ack_changed`. -/
def Obligations.KeySetAndAcknowledge : Prop :=
  ∀ s : State,
    (∀ (k : Key) (b : Bool), ∃ t, apply (.keySet k b) s = .next t ∧ t.keyDown k = b ∧
      (∀ j : Key, j ≠ k → t.keyDown j = s.keyDown j) ∧ sameBut [.keys] s t) ∧
    ∃ t, apply .ackChanged s = .next t ∧ t.chg = false ∧ sameBut [.changed] s t

/-- R43: the byte of `step(rnd)` is what `Cxnn` reads, and no other step depends on it. -/
def Obligations.StepEventSuppliesTheRandomByte : Prop :=
  ∀ (s : State) (r : Byte),
    (∀ x nn, executes s (.rnd x nn) → ∃ t, apply (.step r) s = .next t ∧ t.getV x = r &&& nn) ∧
    ((∀ x nn, ¬ executes s (.rnd x nn)) → apply (.step r) s = step s) ∧
    (s.flt ≠ .noFault → apply (.step r) s = .next s)

/-- R48: the order is `reset`, `load`, `key_set`, `ack_changed`, `step`, `tick`, first to last, here as the numbers 0 to 5
spelled out for each; requests received at once are all kept and put in that order. -/
def Obligations.SimultaneousRequestsAreSerialised : Prop :=
  (Event.reset.rank = 0 ∧ (∀ img, (Event.load img).rank = 1) ∧ (∀ k b, (Event.keySet k b).rank = 2) ∧
    Event.ackChanged.rank = 3 ∧ (∀ r, (Event.step r).rank = 4) ∧ Event.tick.rank = 5) ∧
  ∀ es : List Event, (serialise es).Perm es ∧ (serialise es).Pairwise fun a b => a.rank ≤ b.rank
end

