-- ==== Sys2Proof/Laws/Decode.lean ====
section
/-! SUPPORT. The fields of a packed opcode, and its value as a number (spec/30_encoding.md R81, R82). -/

namespace Sys2Proof

theorem fieldCls_toNat (op : Word) : (fieldCls op).toNat = op.toNat / 4096 := by
  have := op.isLt
  simp [fieldCls, Nat.shiftRight_eq_div_pow]; omega

theorem fieldX_val (op : Word) : (fieldX op).val = op.toNat / 256 % 16 := by
  simp [fieldX, Nat.shiftRight_eq_div_pow]

theorem fieldY_val (op : Word) : (fieldY op).val = op.toNat / 16 % 16 := by
  simp [fieldY, Nat.shiftRight_eq_div_pow]

theorem fieldN_val (op : Word) : (fieldN op).val = op.toNat % 16 := by
  simp [fieldN]

theorem lowNibble_toNat (op : Word) : (op.extractLsb' 0 4).toNat = op.toNat % 16 := by
  simp

theorem fieldNN_toNat (op : Word) : (fieldNN op).toNat = op.toNat % 256 := by
  simp [fieldNN]

theorem fieldNNN_toNat (op : Word) : (fieldNNN op).toNat = op.toNat % 4096 := by
  simp [fieldNNN]

@[simp] theorem regBits_toNat (x : Fin 16) : (regBits x).toNat = x.val := rfl

theorem packNNN_toNat (c : BitVec 4) (nnn : Imm12) : (packNNN c nnn).toNat = c.toNat * 4096 + nnn.toNat := by
  have := nnn.isLt
  unfold packNNN
  rw [BitVec.toNat_append, ← Nat.shiftLeft_add_eq_or_of_lt this, Nat.shiftLeft_eq]

theorem packXNN_toNat (c : BitVec 4) (x : Reg) (nn : Byte) :
    (packXNN c x nn).toNat = c.toNat * 4096 + x.val * 256 + nn.toNat := by
  have h1 := (regBits x).isLt
  have h2 := nn.isLt
  unfold packXNN
  rw [BitVec.toNat_append, ← Nat.shiftLeft_add_eq_or_of_lt h2, BitVec.toNat_append,
    ← Nat.shiftLeft_add_eq_or_of_lt h1, Nat.shiftLeft_eq, Nat.shiftLeft_eq, regBits_toNat]
  omega

theorem packXYN_toNat (c : BitVec 4) (x y : Reg) (n : BitVec 4) :
    (packXYN c x y n).toNat = c.toNat * 4096 + x.val * 256 + y.val * 16 + n.toNat := by
  have h1 := (regBits x).isLt
  have h2 := (regBits y).isLt
  have h3 := n.isLt
  unfold packXYN
  rw [BitVec.toNat_append, ← Nat.shiftLeft_add_eq_or_of_lt h3, BitVec.toNat_append,
    ← Nat.shiftLeft_add_eq_or_of_lt h2, BitVec.toNat_append, ← Nat.shiftLeft_add_eq_or_of_lt h1,
    Nat.shiftLeft_eq, Nat.shiftLeft_eq, Nat.shiftLeft_eq, regBits_toNat, regBits_toNat]
  omega

/-- The two bytes of an opcode give it back (spec/20_memory.md R65). -/
theorem wordOfBytes_toNat (hi lo : Byte) : (wordOfBytes hi lo).toNat = hi.toNat * 256 + lo.toNat := by
  have := lo.isLt
  unfold wordOfBytes
  rw [BitVec.toNat_append, ← Nat.shiftLeft_add_eq_or_of_lt this, Nat.shiftLeft_eq]

theorem wordOfBytes_bytes (op : Word) : wordOfBytes (op.extractLsb' 8 8) (op.extractLsb' 0 8) = op := by
  have := op.isLt
  apply BitVec.eq_of_toNat_eq
  rw [wordOfBytes_toNat]
  simp [Nat.shiftRight_eq_div_pow]
  omega

/-! ## What a row's mask leaves of an opcode (R86) -/

theorem mask_F000 (op : Word) : (op &&& 0xF000#16).toNat = op.toNat / 4096 * 4096 := by
  have h := op.isLt
  have e : op &&& 0xF000#16 = (op >>> 12) <<< 12 := by
    ext k hk
    simp only [BitVec.getElem_and, BitVec.getElem_shiftLeft]
    interval_cases k <;> simp [BitVec.getLsbD_eq_getElem]
  rw [e]
  simp [Nat.shiftRight_eq_div_pow, Nat.shiftLeft_eq]
  omega

theorem mask_F00F (op : Word) : (op &&& 0xF00F#16).toNat = op.toNat / 4096 * 4096 + op.toNat % 16 := by
  have e : op &&& 0xF00F#16 = (op &&& 0xF000#16) ||| (op &&& 0x000F#16) := by
    rw [← BitVec.and_or_distrib_left]; rfl
  have h1 : op.toNat / 4096 * 4096 = (op.toNat / 4096) <<< 12 := by rw [Nat.shiftLeft_eq]
  have h2 : op.toNat &&& 15 = op.toNat % 16 := Nat.and_two_pow_sub_one_eq_mod op.toNat 4
  rw [e, BitVec.toNat_or, mask_F000, BitVec.toNat_and, h1]
  show _ ||| (op.toNat &&& 15) = _
  rw [h2, Nat.shiftLeft_add_eq_or_of_lt (by omega)]

theorem mask_F0FF (op : Word) : (op &&& 0xF0FF#16).toNat = op.toNat / 4096 * 4096 + op.toNat % 256 := by
  have e : op &&& 0xF0FF#16 = (op &&& 0xF000#16) ||| (op &&& 0x00FF#16) := by
    rw [← BitVec.and_or_distrib_left]; rfl
  have h1 : op.toNat / 4096 * 4096 = (op.toNat / 4096) <<< 12 := by rw [Nat.shiftLeft_eq]
  have h2 : op.toNat &&& 255 = op.toNat % 256 := Nat.and_two_pow_sub_one_eq_mod op.toNat 8
  rw [e, BitVec.toNat_or, mask_F000, BitVec.toNat_and, h1]
  show _ ||| (op.toNat &&& 255) = _
  rw [h2, Nat.shiftLeft_add_eq_or_of_lt (by omega)]

theorem mask_FFFF (op : Word) : (op &&& 0xFFFF#16).toNat = op.toNat := by
  have e : (0xFFFF#16) = BitVec.allOnes 16 := rfl
  rw [e, BitVec.and_allOnes]

/-- A row matches an opcode where its masked value, as a number, is the row's (R83). -/
theorem OpcodeRow.matches_iff (r : OpcodeRow) (op : Word) : r.matches op = true ↔ (op &&& r.mask).toNat = r.val.toNat := by
  unfold OpcodeRow.matches
  rw [beq_iff_eq, BitVec.toNat_inj]

/-- Decoding a word says `ok` exactly where the class map gives an instruction. -/
theorem decodeWord_ok_iff (op : Word) (i : Instr) : decodeWord op = .ok i ↔ decodeOption op = some i := by
  unfold decodeWord
  cases decodeOption op <;> simp

/-- Decoding a word says `unknownOpcode` exactly where the class map gives nothing, and gives no other error. -/
theorem decodeWord_error_iff (op : Word) (e : DecodeError) :
    decodeWord op = .error e ↔ decodeOption op = none ∧ e = .unknownOpcode op := by
  unfold decodeWord
  cases decodeOption op <;> simp [eq_comm]

/-- Decoding the bytes of a word, whatever follows them (R80). -/
theorem decode_bytesOfWord (op : Word) (rest : List Byte) (i : Instr) :
    decode (bytesOfWord op ++ rest) = .ok (i, rest) ↔ decodeWord op = .ok i := by
  show (match decodeWord (wordOfBytes _ _) with | .ok i => _ | .error e => _) = _ ↔ _
  rw [wordOfBytes_bytes]
  cases decodeWord op <;> simp

end Sys2Proof
end

