-- ==== Sys2Proof/Laws/Draw.lean ====
section
/-! SUPPORT. What the drawing loops of `Dxyn` do to each pixel and to the collision bit (spec/41_display.md R121,
R123): every loop is described by the set of pixels it flips. -/

namespace Sys2Proof.Machine

/-- A drawing operation flips exactly the pixels of `hit` and collides iff one of them was set. -/
structure Flips (hit : Nat → Nat → Bool) (d e : Canvas) : Prop where
  /-- Inside the display each pixel is XORed with `hit` (R123 (b)). -/
  pixel : ∀ px py, px < 64 → py < 32 → e.frame.pixel px py = (d.frame.pixel px py ^^ hit px py)
  /-- The collision bit is raised iff a set bit lands on a set pixel (R121). -/
  coll : e.coll = true ↔ d.coll = true ∨ ∃ px py, px < 64 ∧ py < 32 ∧ d.frame.pixel px py = true ∧ hit px py = true

theorem Flips.none (d : Canvas) : Flips (fun _ _ => false) d d := ⟨by simp, by simp⟩

theorem Flips.congr {p q : Nat → Nat → Bool} {d e : Canvas} (h : Flips p d e)
    (hpq : ∀ px py, px < 64 → py < 32 → p px py = q px py) : Flips q d e := by
  refine ⟨fun px py hx hy => by rw [h.pixel px py hx hy, hpq px py hx hy], h.coll.trans (or_congr Iff.rfl ?_)⟩
  constructor
  · rintro ⟨px, py, hx, hy, h1, h2⟩
    exact ⟨px, py, hx, hy, h1, by rw [← hpq px py hx hy]; exact h2⟩
  · rintro ⟨px, py, hx, hy, h1, h2⟩
    exact ⟨px, py, hx, hy, h1, by rw [hpq px py hx hy]; exact h2⟩

/-- Two operations that flip disjoint sets of pixels, one after the other (R123 (b): each pixel is visited once). -/
theorem Flips.seq {p q : Nat → Nat → Bool} {d e f : Canvas} (h1 : Flips p d e) (h2 : Flips q e f)
    (hd : ∀ px py, px < 64 → py < 32 → p px py = true → q px py = true → False) :
    Flips (fun px py => p px py || q px py) d f := by
  refine ⟨fun px py hx hy => ?_, ?_⟩
  · rw [h2.pixel px py hx hy, h1.pixel px py hx hy]
    have := hd px py hx hy
    cases hp : p px py <;> cases hq : q px py <;> simp_all
  · rw [h2.coll, h1.coll, or_assoc]
    refine or_congr Iff.rfl ⟨?_, ?_⟩
    · rintro (⟨px, py, hx, hy, hs, hp⟩ | ⟨px, py, hx, hy, hs, hq⟩)
      · exact ⟨px, py, hx, hy, hs, by simp [hp]⟩
      · have hp : p px py = false := by
          cases hp : p px py
          · rfl
          · exact (hd px py hx hy hp hq).elim
        rw [h1.pixel px py hx hy, hp] at hs
        exact ⟨px, py, hx, hy, by simpa using hs, by simp [hq]⟩
    · rintro ⟨px, py, hx, hy, hs, hpq⟩
      cases hp : p px py
      · refine .inr ⟨px, py, hx, hy, ?_, by simpa [hp] using hpq⟩
        rw [h1.pixel px py hx hy, hp, hs]; rfl
      · exact .inl ⟨px, py, hx, hy, hs, hp⟩

/-- A plotted bit flips its one pixel, if it is on the display (R121). -/
theorem Canvas.plot_flips (d : Canvas) (ax ay : Nat) :
    Flips (fun px py => decide (px = ax ∧ py = ay)) d (d.plot ax ay) := by
  unfold Canvas.plot
  split
  · rename_i h
    have hax : ax < 64 := by omega
    have hay : ay < 32 := by omega
    refine ⟨fun px py hx hy => ?_, ?_⟩
    · simp only [Frame.pixel, hx, hy, and_self, dif_pos, Vector.getElem_set]
      by_cases h1 : ax = px
      · subst h1
        by_cases h2 : ay = py
        · subst h2; simp
        · simp [h2, Ne.symm h2]
      · simp [h1, Ne.symm h1]
    · simp only [Bool.or_eq_true]
      refine or_congr Iff.rfl ⟨fun ho => ⟨ax, ay, hax, hay, ?_, by simp⟩, ?_⟩
      · simpa [Frame.pixel, hax, hay] using ho
      · rintro ⟨px, py, hx, hy, hs, he⟩
        obtain ⟨rfl, rfl⟩ : px = ax ∧ py = ay := by simpa using he
        simpa [Frame.pixel, hax, hay] using hs
  · rename_i h
    exact (Flips.none d).congr fun px py hx hy => by simp; omega

/-- The first `n` columns of a sprite row (R121). -/
theorem Canvas.drawRow_flips_upto (d : Canvas) (b : Byte) (x0 ay n : Nat) :
    Flips (fun px py => decide (x0 ≤ px ∧ px < x0 + n ∧ py = ay) && b.getLsbD (7 - (px - x0))) d
      ((List.range n).foldl (fun d c => if b.getLsbD (7 - c) then d.plot (x0 + c) ay else d) d) := by
  induction n with
  | zero => exact (Flips.none d).congr fun px py _ _ => by simp; omega
  | succ n ih =>
    rw [List.range_succ, List.foldl_append, List.foldl_cons, List.foldl_nil]
    split
    · rename_i hb
      refine (ih.seq (Canvas.plot_flips _ _ _) ?_).congr fun px py _ _ => ?_
      · simp; omega
      · by_cases hp : px = x0 + n ∧ py = ay
        · obtain ⟨rfl, rfl⟩ := hp; simpa using hb
        · have : (x0 ≤ px ∧ px < x0 + (n + 1) ∧ py = ay) ↔ (x0 ≤ px ∧ px < x0 + n ∧ py = ay) := by omega
          simp only [hp, decide_false, Bool.or_false, this]
    · rename_i hb
      refine ih.congr fun px py _ _ => ?_
      by_cases hp : px = x0 + n
      · subst hp
        have : ¬ (x0 ≤ x0 + n ∧ x0 + n < x0 + n ∧ py = ay) := by omega
        simp only [this, decide_false, Nat.add_sub_cancel_left, Bool.eq_false_iff.mpr hb, Bool.and_false]
      · have : (x0 ≤ px ∧ px < x0 + (n + 1) ∧ py = ay) ↔ (x0 ≤ px ∧ px < x0 + n ∧ py = ay) := by omega
        simp only [this]

/-- A sprite row flips the set bits of its byte in columns `x0 .. x0+7` of row `ay` (R121). -/
theorem Canvas.drawRow_flips (d : Canvas) (b : Byte) (x0 ay : Nat) :
    Flips (fun px py => decide (x0 ≤ px ∧ px < x0 + 8 ∧ py = ay) && b.getLsbD (7 - (px - x0))) d (d.drawRow b x0 ay) :=
  Canvas.drawRow_flips_upto d b x0 ay 8

/-- All the sprite loops do: the clipped sprite at the origin is XORed in, and a collision is a set bit on a set pixel
(R121, R123 (b)). -/
theorem Canvas.drawRows_flips (d : Canvas) (bs : List Byte) (x0 y0 : Nat) :
    Flips (fun px py => decide (x0 ≤ px ∧ px < x0 + 8 ∧ y0 ≤ py ∧ py < y0 + bs.length) &&
      (bs.getD (py - y0) 0).getLsbD (7 - (px - x0))) d (d.drawRows bs x0 y0) := by
  induction bs generalizing d y0 with
  | nil => exact (Flips.none d).congr fun px py _ _ => by simp
  | cons b bs ih =>
    rw [Canvas.drawRows]
    refine ((Canvas.drawRow_flips d b x0 y0).seq (ih (d.drawRow b x0 y0) (y0 + 1)) ?_).congr fun px py _ _ => ?_
    · simp; omega
    · rw [List.length_cons]
      by_cases hp : py = y0
      · subst hp
        have h1 : ¬ (x0 ≤ px ∧ px < x0 + 8 ∧ py + 1 ≤ py ∧ py < py + 1 + bs.length) := by omega
        have h2 : (x0 ≤ px ∧ px < x0 + 8 ∧ py ≤ py ∧ py < py + (bs.length + 1)) ↔ (x0 ≤ px ∧ px < x0 + 8) := by omega
        simp only [h1, h2, decide_false, Bool.false_and, Bool.or_false, Nat.sub_self, List.getD_cons_zero, and_true]
      · have h1 : ¬ (x0 ≤ px ∧ px < x0 + 8 ∧ py = y0) := by omega
        have h2 : (x0 ≤ px ∧ px < x0 + 8 ∧ y0 ≤ py ∧ py < y0 + (bs.length + 1)) ↔
            (x0 ≤ px ∧ px < x0 + 8 ∧ y0 + 1 ≤ py ∧ py < y0 + 1 + bs.length) := by omega
        by_cases h3 : y0 + 1 ≤ py
        · have h4 : py - y0 = (py - (y0 + 1)) + 1 := by omega
          simp only [h1, h2, decide_false, Bool.false_and, Bool.false_or, h4, List.getD_cons_succ]
        · have h5 : ¬ (x0 ≤ px ∧ px < x0 + 8 ∧ y0 + 1 ≤ py ∧ py < y0 + 1 + bs.length) := by omega
          simp only [h1, h2, h5, decide_false, Bool.false_and, Bool.or_false]

end Sys2Proof.Machine
end

