-- ==== Sys2Proof/Laws/Memory.lean ====
section
/-! SUPPORT. Memory: a read after a write, a write leaves every other byte alone, every operation keeps the canonical
form (spec/20_memory.md R62 to R64, R70). -/

namespace Sys2Proof.Machine

@[simp] theorem Memory.inRange_iff (a n : Nat) : Memory.inRange a n = true ↔ n = 0 ∨ a + n ≤ 4096 := by
  simp [Memory.inRange]

@[simp] theorem Memory.inRange_false_iff (a n : Nat) : Memory.inRange a n = false ↔ n ≠ 0 ∧ 4096 < a + n := by
  rw [← Bool.not_eq_true, Memory.inRange_iff]; omega

@[simp] theorem Memory.byte_nil (a : Nat) : Memory.byte [] a = Memory.initial a := rfl

/-- An address below every listed one reads as its reset content. -/
theorem Memory.byte_of_lt (m : Memory) (a : Nat) (h : ∀ c ∈ m, a < c.1) : Memory.byte m a = Memory.initial a := by
  induction m with
  | nil => rfl
  | cons c m ih =>
    have hc := h c List.mem_cons_self
    have : a ≠ c.1 := by omega
    simp only [Memory.byte, this, if_false]
    exact ih fun d hd => h d (List.mem_cons_of_mem _ hd)

/-- `MemWrite` of one byte: that byte reads as written, every other as before (R64), in a memory whose addresses rise. -/
theorem Memory.byte_put (m : Memory) (a b : Nat) (x : Byte) (h : m.Pairwise (fun c d => c.1 < d.1)) :
    Memory.byte (Memory.put m a x) b = if b = a then x else Memory.byte m b := by
  induction m with
  | nil =>
    unfold Memory.put
    split
    · split
      · rename_i hx hb
        rw [hb, hx, Memory.byte_nil]
      · rfl
    · rfl
  | cons c m ih =>
    obtain ⟨hlt, hm⟩ := List.pairwise_cons.mp h
    have above : ∀ e, e ≤ c.1 → Memory.byte m e = Memory.initial e := fun e hle =>
      Memory.byte_of_lt m e fun d hd => lt_of_le_of_lt hle (hlt d hd)
    unfold Memory.put
    split
    · rename_i h1
      split
      · rename_i hx
        split
        · rename_i hb
          rw [hb, hx, Memory.byte, if_neg (by omega), above a (by omega)]
        · rfl
      · rfl
    · split
      · rename_i h2
        split
        · rename_i hx
          split
          · rename_i hb
            rw [hb, hx, above a (by omega)]
          · rename_i hb
            rw [Memory.byte, if_neg (by omega)]
        · show (if b = a then x else Memory.byte m b) = _
          split
          · rfl
          · rename_i hb
            rw [Memory.byte, if_neg (by omega)]
      · rename_i h1 h2
        show (if b = c.1 then c.2 else Memory.byte (Memory.put m a x) b) = _
        rw [ih hm]
        by_cases hb : b = a
        · rw [if_pos hb, if_pos hb, if_neg (by omega)]
        · rw [if_neg hb, if_neg hb]
          rfl

/-- A cell of a memory after a write is the written one or an old one at another address. -/
theorem Memory.mem_put (m : Memory) (a : Nat) (x : Byte) (c : Host.Cell) (h : c ∈ Memory.put m a x) :
    (c = (a, x) ∧ x ≠ Memory.initial a) ∨ c ∈ m := by
  induction m with
  | nil =>
    by_cases hx : x = Memory.initial a
    · simp [Memory.put, hx] at h
    · simp only [Memory.put, hx, if_false, List.mem_singleton] at h
      exact .inl ⟨h, hx⟩
  | cons d m ih =>
    unfold Memory.put at h
    by_cases h1 : a < d.1
    · by_cases hx : x = Memory.initial a
      · exact .inr (by simpa [h1, hx] using h)
      · simp only [h1, hx, if_true, if_false, List.mem_cons] at h
        rcases h with h | h
        · exact .inl ⟨h, hx⟩
        · exact .inr (by simpa using h)
    · by_cases h2 : a = d.1
      · by_cases hx : x = Memory.initial a
        · rw [if_neg h1, if_pos h2, if_pos hx] at h
          exact .inr (List.mem_cons_of_mem _ h)
        · rw [if_neg h1, if_pos h2, if_neg hx] at h
          rcases List.mem_cons.mp h with h | h
          · exact .inl ⟨h, hx⟩
          · exact .inr (List.mem_cons_of_mem _ h)
      · rw [if_neg h1, if_neg h2] at h
        rcases List.mem_cons.mp h with h | h
        · exact .inr (h ▸ List.mem_cons_self)
        · rcases ih h with h | h
          · exact .inl h
          · exact .inr (List.mem_cons_of_mem _ h)

/-- A write at an address of the machine keeps the canonical form. -/
theorem Memory.put_wf (m : Memory) (a : Nat) (x : Byte) (ha : a < 4096) (h : Memory.wf m) :
    Memory.wf (Memory.put m a x) := by
  refine ⟨?_, fun c hc => ?_⟩
  · obtain ⟨hp, -⟩ := h
    induction m with
    | nil => by_cases hx : x = Memory.initial a <;> simp [Memory.put, hx]
    | cons d m ih =>
      obtain ⟨hlt, hm⟩ := List.pairwise_cons.mp hp
      have hrec := ih hm
      unfold Memory.put
      by_cases h1 : a < d.1
      · by_cases hx : x = Memory.initial a
        · simpa [h1, hx] using hp
        · rw [if_pos h1, if_neg hx]
          refine List.pairwise_cons.mpr ⟨fun c hc => ?_, hp⟩
          rcases List.mem_cons.mp hc with hc | hc
          · exact hc ▸ h1
          · exact lt_trans h1 (hlt c hc)
      · by_cases h2 : a = d.1
        · by_cases hx : x = Memory.initial a
          · rw [if_neg h1, if_pos h2, if_pos hx]; exact hm
          · rw [if_neg h1, if_pos h2, if_neg hx]
            exact List.pairwise_cons.mpr ⟨fun c hc => h2 ▸ hlt c hc, hm⟩
        · rw [if_neg h1, if_neg h2]
          refine List.pairwise_cons.mpr ⟨fun c hc => ?_, hrec⟩
          rcases Memory.mem_put m a x c hc with ⟨rfl, -⟩ | hc
          · show d.1 < a
            omega
          · exact hlt c hc
  · rcases Memory.mem_put m a x c hc with ⟨rfl, hx⟩ | hc
    · exact ⟨ha, hx⟩
    · exact h.2 c hc

/-- A store of several bytes keeps the canonical form. -/
theorem Memory.putAll_wf (m : Memory) (a : Nat) (bs : List Byte) (ha : bs = [] ∨ a + bs.length ≤ 4096)
    (h : Memory.wf m) : Memory.wf (Memory.putAll m a bs) := by
  induction bs generalizing m a with
  | nil => exact h
  | cons b bs ih =>
    have hl : a + (bs.length + 1) ≤ 4096 := by simpa using ha
    exact ih _ _ (.inr (by omega)) (Memory.put_wf m a b (by omega) h)

/-- A write keeps the addresses rising, wherever it goes. -/
theorem Memory.put_pairwise (m : Memory) (a : Nat) (x : Byte) (h : m.Pairwise (fun c d => c.1 < d.1)) :
    (Memory.put m a x).Pairwise (fun c d => c.1 < d.1) := by
  induction m with
  | nil => by_cases hx : x = Memory.initial a <;> simp [Memory.put, hx]
  | cons d m ih =>
    obtain ⟨hlt, hm⟩ := List.pairwise_cons.mp h
    unfold Memory.put
    split
    · split
      · exact h
      · refine List.pairwise_cons.mpr ⟨fun c hc => ?_, h⟩
        rcases List.mem_cons.mp hc with hc | hc
        · exact hc ▸ ‹a < d.1›
        · exact lt_trans ‹a < d.1› (hlt c hc)
    · split
      · rename_i h2
        split
        · exact hm
        · exact List.pairwise_cons.mpr ⟨fun c hc => by simpa only [h2] using hlt c hc, hm⟩
      · refine List.pairwise_cons.mpr ⟨fun c hc => ?_, ih hm⟩
        rcases Memory.mem_put m a x c hc with ⟨rfl, -⟩ | hc
        · show d.1 < a; omega
        · exact hlt c hc

/-- A store of several bytes: byte `b` of the range reads as written, every other byte as before (R64, R70). -/
theorem Memory.byte_putAll (m : Memory) (a b : Nat) (bs : List Byte) (h : m.Pairwise (fun c d => c.1 < d.1)) :
    Memory.byte (Memory.putAll m a bs) b =
      if a ≤ b ∧ b < a + bs.length then bs.getD (b - a) 0 else Memory.byte m b := by
  induction bs generalizing m a with
  | nil => simp [Memory.putAll]
  | cons x bs ih =>
    rw [Memory.putAll, ih _ _ (Memory.put_pairwise m a x h), Memory.byte_put m a b x h]
    simp only [List.length_cons]
    by_cases h1 : b = a
    · subst h1; simp
    · by_cases h2 : a + 1 ≤ b ∧ b < a + 1 + bs.length
      · have : b - a = (b - (a + 1)) + 1 := by omega
        rw [if_pos h2, if_pos (by omega), this, List.getD_cons_succ]
      · rw [if_neg h2, if_neg h1, if_neg (by omega)]

/-! ## The accesses of the spec -/

theorem Memory.read_eq (m : Memory) (a : Nat) :
    Memory.read m a = if a < 4096 then some (Memory.byte m a) else none := by
  unfold Memory.read
  by_cases h : a < 4096
  · rw [if_pos h, if_pos (by simp; omega)]
  · rw [if_neg h, if_neg (by simp; omega)]

/-- All a range read can do: the bytes, or nothing where the range leaves the memory (R63). -/
theorem Memory.readRange_cases (m : Memory) (a n : Nat) :
    ((n = 0 ∨ a + n ≤ 4096) ∧ Memory.readRange m a n = some ((List.range n).map fun k => Memory.byte m (a + k))) ∨
      (n ≠ 0 ∧ 4096 < a + n ∧ Memory.readRange m a n = none) := by
  unfold Memory.readRange
  by_cases h : Memory.inRange a n = true
  · exact .inl ⟨(Memory.inRange_iff a n).mp h, by rw [if_pos h]⟩
  · have := (Memory.inRange_false_iff a n).mp (by simpa using h)
    exact .inr ⟨this.1, this.2, by rw [if_neg h]⟩

/-- All a range write can do: every byte stored, or none at all where the range leaves the memory (R63, R64). -/
theorem Memory.writeRange_cases (m : Memory) (a : Nat) (bs : List Byte) :
    ((bs = [] ∨ a + bs.length ≤ 4096) ∧ Memory.writeRange m a bs = some (Memory.putAll m a bs)) ∨
      (bs ≠ [] ∧ 4096 < a + bs.length ∧ Memory.writeRange m a bs = none) := by
  unfold Memory.writeRange
  by_cases h : Memory.inRange a bs.length = true
  · exact .inl ⟨by simpa using (Memory.inRange_iff a bs.length).mp h, by rw [if_pos h]⟩
  · have := (Memory.inRange_false_iff a bs.length).mp (by simpa using h)
    exact .inr ⟨by simpa using this.1, this.2, by rw [if_neg h]⟩

/-- A range write keeps the canonical form. -/
theorem Memory.writeRange_wf (m m' : Memory) (a : Nat) (bs : List Byte) (h : Memory.writeRange m a bs = some m')
    (hw : Memory.wf m) : Memory.wf m' := by
  rcases Memory.writeRange_cases m a bs with ⟨hr, he⟩ | ⟨-, -, he⟩
  · rw [he] at h; cases h; exact Memory.putAll_wf m a bs hr hw
  · rw [he] at h; cases h

/-- A single-byte write keeps the canonical form. -/
theorem Memory.write_wf (m m' : Memory) (a : Nat) (b : Byte) (h : Memory.write m a b = some m') (hw : Memory.wf m) :
    Memory.wf m' := by
  unfold Memory.write at h
  split at h
  · rename_i hr
    cases h
    have := (Memory.inRange_iff a 1).mp hr
    exact Memory.put_wf m a b (by omega) hw
  · cases h

/-- The memory after reset has the canonical form. -/
theorem Memory.reset_wf : Memory.wf State.reset.mem := by
  simp [State.reset, Memory.wf]

end Sys2Proof.Machine
end

