-- ==== Sys2Proof/Laws/State.lean ====
section
/-! SUPPORT. One lemma per field per update of the state, so that no later proof unfolds a record update: the fields an
update leaves alone, then the field it writes, then what `getV` reads after it. -/

namespace Sys2Proof.Machine

/-! ## setV -/

@[simp] theorem State.setV_i (s : State) (x : Reg) (b : Byte) : (s.setV x b).i = s.i := rfl
@[simp] theorem State.setV_pc (s : State) (x : Reg) (b : Byte) : (s.setV x b).pc = s.pc := rfl
@[simp] theorem State.setV_stack (s : State) (x : Reg) (b : Byte) : (s.setV x b).stack = s.stack := rfl
@[simp] theorem State.setV_sp (s : State) (x : Reg) (b : Byte) : (s.setV x b).sp = s.sp := rfl
@[simp] theorem State.setV_dt (s : State) (x : Reg) (b : Byte) : (s.setV x b).dt = s.dt := rfl
@[simp] theorem State.setV_st (s : State) (x : Reg) (b : Byte) : (s.setV x b).st = s.st := rfl
@[simp] theorem State.setV_fb (s : State) (x : Reg) (b : Byte) : (s.setV x b).fb = s.fb := rfl
@[simp] theorem State.setV_chg (s : State) (x : Reg) (b : Byte) : (s.setV x b).chg = s.chg := rfl
@[simp] theorem State.setV_key (s : State) (x : Reg) (b : Byte) : (s.setV x b).key = s.key := rfl
@[simp] theorem State.setV_flt (s : State) (x : Reg) (b : Byte) : (s.setV x b).flt = s.flt := rfl
@[simp] theorem State.setV_mem (s : State) (x : Reg) (b : Byte) : (s.setV x b).mem = s.mem := rfl
@[simp] theorem State.setV_rndIn (s : State) (x : Reg) (b : Byte) : (s.setV x b).rndIn = s.rndIn := rfl
@[simp] theorem State.setV_draws (s : State) (x : Reg) (b : Byte) : (s.setV x b).draws = s.draws := rfl

/-! ## goto -/

@[simp] theorem State.goto_v (s : State) (w : Word) : (s.goto w).v = s.v := rfl
@[simp] theorem State.goto_i (s : State) (w : Word) : (s.goto w).i = s.i := rfl
@[simp] theorem State.goto_stack (s : State) (w : Word) : (s.goto w).stack = s.stack := rfl
@[simp] theorem State.goto_sp (s : State) (w : Word) : (s.goto w).sp = s.sp := rfl
@[simp] theorem State.goto_dt (s : State) (w : Word) : (s.goto w).dt = s.dt := rfl
@[simp] theorem State.goto_st (s : State) (w : Word) : (s.goto w).st = s.st := rfl
@[simp] theorem State.goto_fb (s : State) (w : Word) : (s.goto w).fb = s.fb := rfl
@[simp] theorem State.goto_chg (s : State) (w : Word) : (s.goto w).chg = s.chg := rfl
@[simp] theorem State.goto_key (s : State) (w : Word) : (s.goto w).key = s.key := rfl
@[simp] theorem State.goto_flt (s : State) (w : Word) : (s.goto w).flt = s.flt := rfl
@[simp] theorem State.goto_mem (s : State) (w : Word) : (s.goto w).mem = s.mem := rfl
@[simp] theorem State.goto_rndIn (s : State) (w : Word) : (s.goto w).rndIn = s.rndIn := rfl
@[simp] theorem State.goto_draws (s : State) (w : Word) : (s.goto w).draws = s.draws := rfl

/-! ## advance -/

@[simp] theorem State.advance_v (s : State) : (s.advance).v = s.v := rfl
@[simp] theorem State.advance_i (s : State) : (s.advance).i = s.i := rfl
@[simp] theorem State.advance_stack (s : State) : (s.advance).stack = s.stack := rfl
@[simp] theorem State.advance_sp (s : State) : (s.advance).sp = s.sp := rfl
@[simp] theorem State.advance_dt (s : State) : (s.advance).dt = s.dt := rfl
@[simp] theorem State.advance_st (s : State) : (s.advance).st = s.st := rfl
@[simp] theorem State.advance_fb (s : State) : (s.advance).fb = s.fb := rfl
@[simp] theorem State.advance_chg (s : State) : (s.advance).chg = s.chg := rfl
@[simp] theorem State.advance_key (s : State) : (s.advance).key = s.key := rfl
@[simp] theorem State.advance_flt (s : State) : (s.advance).flt = s.flt := rfl
@[simp] theorem State.advance_mem (s : State) : (s.advance).mem = s.mem := rfl
@[simp] theorem State.advance_rndIn (s : State) : (s.advance).rndIn = s.rndIn := rfl
@[simp] theorem State.advance_draws (s : State) : (s.advance).draws = s.draws := rfl

/-! ## skipIf -/

@[simp] theorem State.skipIf_v (s : State) (c : Bool) : (s.skipIf c).v = s.v := rfl
@[simp] theorem State.skipIf_i (s : State) (c : Bool) : (s.skipIf c).i = s.i := rfl
@[simp] theorem State.skipIf_stack (s : State) (c : Bool) : (s.skipIf c).stack = s.stack := rfl
@[simp] theorem State.skipIf_sp (s : State) (c : Bool) : (s.skipIf c).sp = s.sp := rfl
@[simp] theorem State.skipIf_dt (s : State) (c : Bool) : (s.skipIf c).dt = s.dt := rfl
@[simp] theorem State.skipIf_st (s : State) (c : Bool) : (s.skipIf c).st = s.st := rfl
@[simp] theorem State.skipIf_fb (s : State) (c : Bool) : (s.skipIf c).fb = s.fb := rfl
@[simp] theorem State.skipIf_chg (s : State) (c : Bool) : (s.skipIf c).chg = s.chg := rfl
@[simp] theorem State.skipIf_key (s : State) (c : Bool) : (s.skipIf c).key = s.key := rfl
@[simp] theorem State.skipIf_flt (s : State) (c : Bool) : (s.skipIf c).flt = s.flt := rfl
@[simp] theorem State.skipIf_mem (s : State) (c : Bool) : (s.skipIf c).mem = s.mem := rfl
@[simp] theorem State.skipIf_rndIn (s : State) (c : Bool) : (s.skipIf c).rndIn = s.rndIn := rfl
@[simp] theorem State.skipIf_draws (s : State) (c : Bool) : (s.skipIf c).draws = s.draws := rfl

/-! ## setFlag -/

@[simp] theorem State.setFlag_i (s : State) (f : Bool) : (s.setFlag f).i = s.i := rfl
@[simp] theorem State.setFlag_pc (s : State) (f : Bool) : (s.setFlag f).pc = s.pc := rfl
@[simp] theorem State.setFlag_stack (s : State) (f : Bool) : (s.setFlag f).stack = s.stack := rfl
@[simp] theorem State.setFlag_sp (s : State) (f : Bool) : (s.setFlag f).sp = s.sp := rfl
@[simp] theorem State.setFlag_dt (s : State) (f : Bool) : (s.setFlag f).dt = s.dt := rfl
@[simp] theorem State.setFlag_st (s : State) (f : Bool) : (s.setFlag f).st = s.st := rfl
@[simp] theorem State.setFlag_fb (s : State) (f : Bool) : (s.setFlag f).fb = s.fb := rfl
@[simp] theorem State.setFlag_chg (s : State) (f : Bool) : (s.setFlag f).chg = s.chg := rfl
@[simp] theorem State.setFlag_key (s : State) (f : Bool) : (s.setFlag f).key = s.key := rfl
@[simp] theorem State.setFlag_flt (s : State) (f : Bool) : (s.setFlag f).flt = s.flt := rfl
@[simp] theorem State.setFlag_mem (s : State) (f : Bool) : (s.setFlag f).mem = s.mem := rfl
@[simp] theorem State.setFlag_rndIn (s : State) (f : Bool) : (s.setFlag f).rndIn = s.rndIn := rfl
@[simp] theorem State.setFlag_draws (s : State) (f : Bool) : (s.setFlag f).draws = s.draws := rfl

/-! ## writeReg -/

@[simp] theorem State.writeReg_i (s : State) (x : Reg) (b : Byte) : (s.writeReg x b).i = s.i := rfl
@[simp] theorem State.writeReg_stack (s : State) (x : Reg) (b : Byte) : (s.writeReg x b).stack = s.stack := rfl
@[simp] theorem State.writeReg_sp (s : State) (x : Reg) (b : Byte) : (s.writeReg x b).sp = s.sp := rfl
@[simp] theorem State.writeReg_dt (s : State) (x : Reg) (b : Byte) : (s.writeReg x b).dt = s.dt := rfl
@[simp] theorem State.writeReg_st (s : State) (x : Reg) (b : Byte) : (s.writeReg x b).st = s.st := rfl
@[simp] theorem State.writeReg_fb (s : State) (x : Reg) (b : Byte) : (s.writeReg x b).fb = s.fb := rfl
@[simp] theorem State.writeReg_chg (s : State) (x : Reg) (b : Byte) : (s.writeReg x b).chg = s.chg := rfl
@[simp] theorem State.writeReg_key (s : State) (x : Reg) (b : Byte) : (s.writeReg x b).key = s.key := rfl
@[simp] theorem State.writeReg_flt (s : State) (x : Reg) (b : Byte) : (s.writeReg x b).flt = s.flt := rfl
@[simp] theorem State.writeReg_mem (s : State) (x : Reg) (b : Byte) : (s.writeReg x b).mem = s.mem := rfl
@[simp] theorem State.writeReg_rndIn (s : State) (x : Reg) (b : Byte) : (s.writeReg x b).rndIn = s.rndIn := rfl
@[simp] theorem State.writeReg_draws (s : State) (x : Reg) (b : Byte) : (s.writeReg x b).draws = s.draws := rfl

/-! ## writeWithFlag -/

@[simp] theorem State.writeWithFlag_i (s : State) (x : Reg) (b : Byte) (f : Bool) : (s.writeWithFlag x b f).i = s.i := rfl
@[simp] theorem State.writeWithFlag_stack (s : State) (x : Reg) (b : Byte) (f : Bool) : (s.writeWithFlag x b f).stack = s.stack := rfl
@[simp] theorem State.writeWithFlag_sp (s : State) (x : Reg) (b : Byte) (f : Bool) : (s.writeWithFlag x b f).sp = s.sp := rfl
@[simp] theorem State.writeWithFlag_dt (s : State) (x : Reg) (b : Byte) (f : Bool) : (s.writeWithFlag x b f).dt = s.dt := rfl
@[simp] theorem State.writeWithFlag_st (s : State) (x : Reg) (b : Byte) (f : Bool) : (s.writeWithFlag x b f).st = s.st := rfl
@[simp] theorem State.writeWithFlag_fb (s : State) (x : Reg) (b : Byte) (f : Bool) : (s.writeWithFlag x b f).fb = s.fb := rfl
@[simp] theorem State.writeWithFlag_chg (s : State) (x : Reg) (b : Byte) (f : Bool) : (s.writeWithFlag x b f).chg = s.chg := rfl
@[simp] theorem State.writeWithFlag_key (s : State) (x : Reg) (b : Byte) (f : Bool) : (s.writeWithFlag x b f).key = s.key := rfl
@[simp] theorem State.writeWithFlag_flt (s : State) (x : Reg) (b : Byte) (f : Bool) : (s.writeWithFlag x b f).flt = s.flt := rfl
@[simp] theorem State.writeWithFlag_mem (s : State) (x : Reg) (b : Byte) (f : Bool) : (s.writeWithFlag x b f).mem = s.mem := rfl
@[simp] theorem State.writeWithFlag_rndIn (s : State) (x : Reg) (b : Byte) (f : Bool) : (s.writeWithFlag x b f).rndIn = s.rndIn := rfl
@[simp] theorem State.writeWithFlag_draws (s : State) (x : Reg) (b : Byte) (f : Bool) : (s.writeWithFlag x b f).draws = s.draws := rfl

/-! ## bumpI -/

@[simp] theorem State.bumpI_v (s : State) (x : Reg) : (s.bumpI x).v = s.v := rfl
@[simp] theorem State.bumpI_pc (s : State) (x : Reg) : (s.bumpI x).pc = s.pc := rfl
@[simp] theorem State.bumpI_stack (s : State) (x : Reg) : (s.bumpI x).stack = s.stack := rfl
@[simp] theorem State.bumpI_sp (s : State) (x : Reg) : (s.bumpI x).sp = s.sp := rfl
@[simp] theorem State.bumpI_dt (s : State) (x : Reg) : (s.bumpI x).dt = s.dt := rfl
@[simp] theorem State.bumpI_st (s : State) (x : Reg) : (s.bumpI x).st = s.st := rfl
@[simp] theorem State.bumpI_fb (s : State) (x : Reg) : (s.bumpI x).fb = s.fb := rfl
@[simp] theorem State.bumpI_chg (s : State) (x : Reg) : (s.bumpI x).chg = s.chg := rfl
@[simp] theorem State.bumpI_key (s : State) (x : Reg) : (s.bumpI x).key = s.key := rfl
@[simp] theorem State.bumpI_flt (s : State) (x : Reg) : (s.bumpI x).flt = s.flt := rfl
@[simp] theorem State.bumpI_mem (s : State) (x : Reg) : (s.bumpI x).mem = s.mem := rfl
@[simp] theorem State.bumpI_rndIn (s : State) (x : Reg) : (s.bumpI x).rndIn = s.rndIn := rfl
@[simp] theorem State.bumpI_draws (s : State) (x : Reg) : (s.bumpI x).draws = s.draws := rfl

/-! ## The written fields -/

@[simp] theorem State.goto_pc (s : State) (w : Word) : (s.goto w).pc = w := rfl
@[simp] theorem State.advance_pc (s : State) : s.advance.pc = s.pc + 2 := rfl
@[simp] theorem State.skipIf_pc (s : State) (c : Bool) : (s.skipIf c).pc = if c then s.pcn + 2 else s.pcn := rfl
@[simp] theorem State.writeReg_pc (s : State) (x : Reg) (b : Byte) : (s.writeReg x b).pc = s.pc + 2 := rfl
@[simp] theorem State.writeWithFlag_pc (s : State) (x : Reg) (b : Byte) (f : Bool) :
    (s.writeWithFlag x b f).pc = s.pc + 2 := rfl
@[simp] theorem State.bumpI_i (s : State) (x : Reg) : (s.bumpI x).i = s.i + BitVec.ofNat 16 (x.val + 1) := rfl
theorem State.pcn_eq (s : State) : s.pcn = s.pc + 2 := rfl

/-! ## Reading a register after an update -/

@[simp] theorem State.getV_setV (s : State) (x y : Reg) (b : Byte) :
    (s.setV x b).getV y = if y = x then b else s.getV y := by
  unfold State.setV State.getV
  by_cases h : y = x
  · subst h; simp
  · have : x.val ≠ y.val := fun e => h (Fin.ext e.symm)
    simp [h, this]

@[simp] theorem State.getV_goto (s : State) (w : Word) (y : Reg) : (s.goto w).getV y = s.getV y := rfl
@[simp] theorem State.getV_advance (s : State) (y : Reg) : s.advance.getV y = s.getV y := rfl
@[simp] theorem State.getV_skipIf (s : State) (c : Bool) (y : Reg) : (s.skipIf c).getV y = s.getV y := rfl
@[simp] theorem State.getV_bumpI (s : State) (x y : Reg) : (s.bumpI x).getV y = s.getV y := rfl

@[simp] theorem State.getV_setFlag (s : State) (f : Bool) (y : Reg) :
    (s.setFlag f).getV y = if y = Reg.vf then (if f then 1 else 0) else s.getV y := State.getV_setV ..

@[simp] theorem State.getV_writeReg (s : State) (x y : Reg) (b : Byte) :
    (s.writeReg x b).getV y = if y = x then b else s.getV y := State.getV_setV ..

/-- The flag wins over the result when `x = 0xF` (spec/10_state.md R23). -/
@[simp] theorem State.getV_writeWithFlag (s : State) (x y : Reg) (b : Byte) (f : Bool) :
    (s.writeWithFlag x b f).getV y =
      if y = Reg.vf then (if f then 1 else 0) else if y = x then b else s.getV y := by
  unfold State.writeWithFlag
  rw [State.getV_advance, State.getV_setFlag, State.getV_setV]

/-! ## takeRnd -/

@[simp] theorem State.takeRnd_v (s : State) : s.takeRnd.v = s.v := by unfold State.takeRnd; split <;> rfl
@[simp] theorem State.takeRnd_i (s : State) : s.takeRnd.i = s.i := by unfold State.takeRnd; split <;> rfl
@[simp] theorem State.takeRnd_pc (s : State) : s.takeRnd.pc = s.pc := by unfold State.takeRnd; split <;> rfl
@[simp] theorem State.takeRnd_stack (s : State) : s.takeRnd.stack = s.stack := by unfold State.takeRnd; split <;> rfl
@[simp] theorem State.takeRnd_sp (s : State) : s.takeRnd.sp = s.sp := by unfold State.takeRnd; split <;> rfl
@[simp] theorem State.takeRnd_dt (s : State) : s.takeRnd.dt = s.dt := by unfold State.takeRnd; split <;> rfl
@[simp] theorem State.takeRnd_st (s : State) : s.takeRnd.st = s.st := by unfold State.takeRnd; split <;> rfl
@[simp] theorem State.takeRnd_fb (s : State) : s.takeRnd.fb = s.fb := by unfold State.takeRnd; split <;> rfl
@[simp] theorem State.takeRnd_chg (s : State) : s.takeRnd.chg = s.chg := by unfold State.takeRnd; split <;> rfl
@[simp] theorem State.takeRnd_key (s : State) : s.takeRnd.key = s.key := by unfold State.takeRnd; split <;> rfl
@[simp] theorem State.takeRnd_flt (s : State) : s.takeRnd.flt = s.flt := by unfold State.takeRnd; split <;> rfl
@[simp] theorem State.takeRnd_mem (s : State) : s.takeRnd.mem = s.mem := by unfold State.takeRnd; split <;> rfl

@[simp] theorem State.getV_takeRnd (s : State) (y : Reg) : s.takeRnd.getV y = s.getV y := by
  simp only [State.getV, State.takeRnd_v]

/-- Taking the random byte uses the host's byte up, or advances the counter, and touches nothing else. -/
theorem State.takeRnd_cases (s : State) :
    (∃ r, s.rndIn = some r ∧ s.rndByte = r ∧ s.takeRnd = { s with rndIn := none }) ∨
      (s.rndIn = none ∧ s.rndByte = Config.rndByte s.draws ∧ s.takeRnd = { s with draws := s.draws + 1 }) := by
  unfold State.rndByte State.takeRnd
  cases h : s.rndIn with
  | none => exact .inr ⟨rfl, rfl, rfl⟩
  | some r => exact .inl ⟨r, rfl, rfl, rfl⟩

end Sys2Proof.Machine
end

