-- ==== Sys2Proof/Laws/Ops.lean ====
section
/-! SUPPORT. For each shared operation one lemma that says everything it can do; the proofs cite these and unfold none of
the operations again. -/

namespace Sys2Proof.Machine

/-! ## Registers in a row -/

/-- All that `setRegs` does: register `r` of the run takes its byte, every other register stays. -/
theorem setRegs_get (v : Vector Byte 16) (k : Nat) (bs : List Byte) (r : Reg) :
    (setRegs v k bs)[r] = if k ≤ r.val ∧ r.val < k + bs.length then bs.getD (r.val - k) 0 else v[r] := by
  induction bs generalizing v k with
  | nil => simp [setRegs]
  | cons b bs ih =>
    have hr := r.isLt
    rw [setRegs, ih]
    simp only [List.length_cons]
    by_cases h1 : r.val = k
    · have hk : k < 16 := by omega
      rw [if_neg (by omega), if_pos (by omega)]
      simp [hk, h1]
    · by_cases h2 : k + 1 ≤ r.val ∧ r.val < k + 1 + bs.length
      · have : r.val - k = (r.val - (k + 1)) + 1 := by omega
        rw [if_pos h2, if_pos (by omega), this, List.getD_cons_succ]
      · rw [if_neg h2, if_neg (by omega)]
        split
        · simp [Ne.symm h1]
        · rfl

/-- `V[0..x]` has `x + 1` bytes. -/
@[simp] theorem State.regsUpTo_length (s : State) (x : Reg) : (s.regsUpTo x).length = x.val + 1 := by
  simp [State.regsUpTo]

/-- The k-th byte of `V[0..x]` is `V[k]`. -/
theorem State.regsUpTo_getD (s : State) (x r : Reg) (h : r ≤ x) : (s.regsUpTo x).getD r.val 0 = s.getV r := by
  have h' : r.val < x.val + 1 := Nat.lt_succ_of_le h
  simp [State.regsUpTo, State.getV, List.getD_eq_getElem?_getD, h']

/-! ## Call stack -/

/-- All a push can do (spec/10_state.md R26). -/
theorem State.push_cases (s : State) (w : Word) :
    (∃ t, s.push w = some t ∧ s.sp.val < 16 ∧ t.sp.val = s.sp.val + 1 ∧
        (∀ j : Fin 16, t.stack[j] = if j.val = s.sp.val then w else s.stack[j]) ∧
        t = { s with stack := t.stack, sp := t.sp }) ∨
      (s.push w = none ∧ s.sp.val = 16) := by
  have hsp := s.sp.isLt
  unfold State.push
  by_cases h : s.sp.val < 16
  · refine .inl ⟨_, dif_pos h, h, rfl, fun j => ?_, rfl⟩
    simp only [Fin.getElem_fin, Vector.getElem_set]
    by_cases hj : j.val = s.sp.val
    · rw [if_pos hj, if_pos hj.symm]
    · rw [if_neg hj, if_neg (Ne.symm hj)]
  · exact .inr ⟨dif_neg h, by omega⟩

/-- All a pop can do: the entry last pushed, which stays in place (spec/10_state.md R26). -/
theorem State.pop_cases (s : State) :
    (∃ w t, s.pop = some (w, t) ∧ (∃ j : Fin 16, j.val + 1 = s.sp.val ∧ w = s.stack[j]) ∧
        t.sp.val + 1 = s.sp.val ∧ t = { s with sp := t.sp }) ∨
      (s.pop = none ∧ s.sp.val = 0) := by
  have hsp := s.sp.isLt
  unfold State.pop
  by_cases h : s.sp.val = 0
  · exact .inr ⟨dif_pos h, h⟩
  · refine .inl ⟨_, _, dif_neg h, ⟨⟨s.sp.val - 1, by omega⟩, by simp; omega, rfl⟩, by simp; omega, rfl⟩

/-! ## Accesses through I -/

/-- All a load at `I` can do (spec/20_memory.md R63). -/
theorem State.loadAtI_cases (s : State) (n : Nat) :
    ((n = 0 ∨ s.i.toNat + n ≤ 4096) ∧
        s.loadAtI n = some ((List.range n).map fun k => Memory.byte s.mem (s.i.toNat + k))) ∨
      (n ≠ 0 ∧ 4096 < s.i.toNat + n ∧ s.loadAtI n = none) :=
  Memory.readRange_cases s.mem s.i.toNat n

/-- All a store at `I` can do: memory alone changes, or nothing is stored at all (spec/20_memory.md R63, R64). -/
theorem State.storeAtI_cases (s : State) (bs : List Byte) :
    ((bs = [] ∨ s.i.toNat + bs.length ≤ 4096) ∧
        s.storeAtI bs = some { s with mem := Memory.putAll s.mem s.i.toNat bs }) ∨
      (bs ≠ [] ∧ 4096 < s.i.toNat + bs.length ∧ s.storeAtI bs = none) := by
  unfold State.storeAtI
  rcases Memory.writeRange_cases s.mem s.i.toNat bs with ⟨h, he⟩ | ⟨h1, h2, he⟩
  · exact .inl ⟨h, by rw [he]; rfl⟩
  · exact .inr ⟨h1, h2, by rw [he]; rfl⟩

/-! ## Keys -/

/-- The key a byte names, or none above 15 (spec/45_keys_timers.md R200). -/
theorem keyOf_cases (b : Byte) :
    (∃ k : Key, keyOf b = some k ∧ k.val = b.toNat) ∨ (keyOf b = none ∧ 15 < b.toNat) := by
  unfold keyOf
  by_cases h : b.toNat < 16
  · exact .inl ⟨⟨b.toNat, h⟩, dif_pos h, rfl⟩
  · exact .inr ⟨dif_neg h, by omega⟩

/-- The scan over a list of keys: the last pressed one of it, or what the scan held before. -/
theorem scan_foldl (f : Key → Bool) (ks : List Key) (a : Option Key) (hs : ks.Pairwise (· < ·)) :
    (∃ k ∈ ks, f k = true ∧ (∀ j ∈ ks, f j = true → j ≤ k) ∧
        ks.foldl (fun last k => if f k then some k else last) a = some k) ∨
      ((∀ k ∈ ks, f k = false) ∧ ks.foldl (fun last k => if f k then some k else last) a = a) := by
  induction ks generalizing a with
  | nil => exact .inr ⟨by simp, rfl⟩
  | cons k ks ih =>
    obtain ⟨hk, hs⟩ := List.pairwise_cons.mp hs
    rw [List.foldl_cons]
    rcases ih (if f k then some k else a) hs with ⟨j, hj, hf, hmax, he⟩ | ⟨hno, he⟩
    · refine .inl ⟨j, List.mem_cons_of_mem _ hj, hf, fun l hl hfl => ?_, he⟩
      rcases List.mem_cons.mp hl with rfl | hl
      · exact le_of_lt (hk j hj)
      · exact hmax l hl hfl
    · by_cases hf : f k = true
      · refine .inl ⟨k, List.mem_cons_self, hf, fun l hl hfl => ?_, by rw [he, if_pos hf]⟩
        rcases List.mem_cons.mp hl with rfl | hl
        · exact le_refl _
        · exact absurd hfl (by simp [hno l hl])
      · refine .inr ⟨fun l hl => ?_, by rw [he, if_neg hf]⟩
        rcases List.mem_cons.mp hl with rfl | hl
        · simpa using hf
        · exact hno l hl

/-- All the scan of `Fx0A` can find: the highest pressed key, or that none is pressed (spec/45_keys_timers.md R203). -/
theorem State.scanKeys_cases (s : State) :
    (∃ k : Key, s.scanKeys = some k ∧ s.keyDown k = true ∧ ∀ j : Key, s.keyDown j = true → j ≤ k) ∨
      (s.scanKeys = none ∧ ∀ k : Key, s.keyDown k = false) := by
  rcases scan_foldl s.keyDown (List.finRange 16) none (List.pairwise_lt_finRange 16) with
    ⟨k, -, hf, hmax, he⟩ | ⟨hno, he⟩
  · exact .inl ⟨k, he, hf, fun j hj => hmax j (List.mem_finRange j) hj⟩
  · exact .inr ⟨he, fun k => hno k (List.mem_finRange k)⟩

/-! ## Fetch and the step -/

/-- All a fetch can do (spec/40_step_cycle.md R101). -/
theorem State.fetch_cases (s : State) :
    (s.pc.toNat ≤ 0xFFE ∧
        s.fetch = some (wordOfBytes (Memory.byte s.mem s.pc.toNat) (Memory.byte s.mem (s.pc.toNat + 1)))) ∨
      (0xFFE < s.pc.toNat ∧ s.fetch = none) := by
  unfold State.fetch
  by_cases h : Memory.inRange s.pc.toNat 2 = true
  · exact .inl ⟨by have := (Memory.inRange_iff _ _).mp h; omega, by rw [if_pos h]⟩
  · have := (Memory.inRange_false_iff s.pc.toNat 2).mp (Bool.eq_false_iff.mpr h)
    exact .inr ⟨by omega, by rw [if_neg h]⟩

/-- All a step can do (spec/40_step_cycle.md R100 to R104): nothing while faulted, the fetch fault, the decoded
instruction, or the no-operation of an unknown opcode. -/
theorem step_cases (s : State) :
    (s.flt ≠ .noFault ∧ step s = .next s) ∨
      (s.flt = .noFault ∧ s.fetch = none ∧ step s = .next { s with flt := .addressRange }) ∨
      (∃ op i, s.flt = .noFault ∧ s.fetch = some op ∧ decodeWord op = .ok i ∧ step s = exec i s) ∨
      (∃ op, s.flt = .noFault ∧ s.fetch = some op ∧ decodeWord op = .error (.unknownOpcode op) ∧
        step s = .next s.advance) := by
  unfold step stepEvent
  by_cases hf : s.flt = .noFault
  · rw [if_pos hf]
    cases hop : s.fetch with
    | none => exact .inr (.inl ⟨hf, rfl, rfl⟩)
    | some op =>
      cases hd : decodeWord op with
      | ok i => exact .inr (.inr (.inl ⟨op, i, hf, rfl, hd, by simp only [hd]⟩))
      | error e =>
        obtain ⟨-, rfl⟩ := (decodeWord_error_iff op e).mp hd
        exact .inr (.inr (.inr ⟨op, hf, rfl, hd, by simp only [hd, execUnknown]⟩))
  · exact .inl ⟨hf, by rw [if_neg hf]⟩

end Sys2Proof.Machine
end

