-- ==== Sys2Proof/Laws/Frame.lean ====
section
/-! SUPPORT. The frame of each shared update: every part it does not name is the same afterwards (spec/00_scope.md
R13). -/

namespace Sys2Proof.Machine

/-- A frame proved part by part. -/
theorem sameBut_intro {ps : List Part} {s t : State} (h : ∀ p, p ∉ ps → p.same s t) : sameBut ps s t := h

theorem sameBut_goto (s : State) (w : Word) : sameBut [.counter] s (s.goto w) := by
  intro p hp
  cases p <;> first
    | exact (hp (by decide)).elim
    | exact rfl
    | exact fun _ => rfl
    | exact fun _ _ => rfl
    | exact ⟨rfl, rfl⟩

theorem sameBut_advance (s : State) : sameBut [.counter] s s.advance := sameBut_goto s _

theorem sameBut_skipIf (s : State) (c : Bool) : sameBut [.counter] s (s.skipIf c) := sameBut_goto s _

theorem sameBut_writeReg (s : State) (x : Reg) (b : Byte) : sameBut [.regs, .counter] s (s.writeReg x b) := by
  intro p hp
  cases p <;> first
    | exact (hp (by decide)).elim
    | exact rfl
    | exact fun _ => rfl
    | exact fun _ _ => rfl
    | exact ⟨rfl, rfl⟩

theorem sameBut_writeWithFlag (s : State) (x : Reg) (b : Byte) (f : Bool) :
    sameBut [.regs, .counter] s (s.writeWithFlag x b f) := by
  intro p hp
  cases p <;> first
    | exact (hp (by decide)).elim
    | exact rfl
    | exact fun _ => rfl
    | exact fun _ _ => rfl
    | exact ⟨rfl, rfl⟩

theorem regsBut_writeReg (s : State) (x : Reg) (b : Byte) : regsBut [x] s (s.writeReg x b) := by
  intro r hr
  rw [State.getV_writeReg, if_neg (by simpa using hr)]

theorem regsBut_writeWithFlag (s : State) (x : Reg) (b : Byte) (f : Bool) :
    regsBut [x, Reg.vf] s (s.writeWithFlag x b f) := by
  intro r hr
  simp only [List.mem_cons, List.not_mem_nil, or_false, not_or] at hr
  rw [State.getV_writeWithFlag, if_neg hr.2, if_neg hr.1]

/-- An update of `I` then `PC <- pcn`. -/
theorem sameBut_index (s : State) (w : Word) :
    sameBut [.index, .counter] s ({ s with i := w } : State).advance := by
  intro p hp
  cases p <;> first
    | exact (hp (by decide)).elim
    | exact rfl
    | exact fun _ => rfl
    | exact fun _ _ => rfl
    | exact ⟨rfl, rfl⟩

end Sys2Proof.Machine
end

