-- ==== Sys2Proof/Laws/PerInstr.lean ====
section
/-! SUPPORT. Statements made once per instruction. FixedBits: the opcode the encoder writes has the fixed bits of the
instruction's row of spec/30_encoding.md R86, and its fields are in range (R82). -/

namespace Sys2Proof

@[simp] theorem nibbleOk_val (x : Fin 16) : nibbleOk x.val = true := by simp [nibbleOk]

@[simp] theorem nnOk_toNat (nn : Byte) : nnOk nn.toNat = true := by simpa [nnOk] using nn.isLt

@[simp] theorem nnnOk_toNat (nnn : Imm12) : nnnOk nnn.toNat = true := by simpa [nnnOk] using nnn.isLt

end Sys2Proof

namespace Sys2Proof.Laws.FixedBits

/-- The encoding of `i` matches its row under the row's mask, and `i` is well formed (R82, R86). -/
def Statement (i : Instr) : Prop := (rowOf i).matches (encode i) = true ∧ i.wellFormed = true

theorem cls : Statement .cls := ⟨by decide, by decide⟩

theorem ret : Statement .ret := ⟨by decide, by decide⟩

theorem jp (nnn : Imm12) : Statement (.jp nnn) :=
  ⟨by have := nnn.isLt; rw [OpcodeRow.matches_iff, rowOf, mask_F000, encode, packNNN_toNat]; simp; omega, by simp [Instr.wellFormed]⟩

theorem call (nnn : Imm12) : Statement (.call nnn) :=
  ⟨by have := nnn.isLt; rw [OpcodeRow.matches_iff, rowOf, mask_F000, encode, packNNN_toNat]; simp; omega, by simp [Instr.wellFormed]⟩

theorem seImm (x : Reg) (nn : Byte) : Statement (.seImm x nn) :=
  ⟨by have := nn.isLt; have := x.isLt; rw [OpcodeRow.matches_iff, rowOf, mask_F000, encode, packXNN_toNat]; simp; omega, by simp [Instr.wellFormed]⟩

theorem sneImm (x : Reg) (nn : Byte) : Statement (.sneImm x nn) :=
  ⟨by have := nn.isLt; have := x.isLt; rw [OpcodeRow.matches_iff, rowOf, mask_F000, encode, packXNN_toNat]; simp; omega, by simp [Instr.wellFormed]⟩

theorem seReg (x y : Reg) : Statement (.seReg x y) :=
  ⟨by have := x.isLt; have := y.isLt; rw [OpcodeRow.matches_iff, rowOf, mask_F00F, encode, packXYN_toNat]; simp; omega, by simp [Instr.wellFormed]⟩

theorem ldImm (x : Reg) (nn : Byte) : Statement (.ldImm x nn) :=
  ⟨by have := nn.isLt; have := x.isLt; rw [OpcodeRow.matches_iff, rowOf, mask_F000, encode, packXNN_toNat]; simp; omega, by simp [Instr.wellFormed]⟩

theorem addImm (x : Reg) (nn : Byte) : Statement (.addImm x nn) :=
  ⟨by have := nn.isLt; have := x.isLt; rw [OpcodeRow.matches_iff, rowOf, mask_F000, encode, packXNN_toNat]; simp; omega, by simp [Instr.wellFormed]⟩

theorem ldReg (x y : Reg) : Statement (.ldReg x y) :=
  ⟨by have := x.isLt; have := y.isLt; rw [OpcodeRow.matches_iff, rowOf, mask_F00F, encode, packXYN_toNat]; simp; omega, by simp [Instr.wellFormed]⟩

theorem orReg (x y : Reg) : Statement (.orReg x y) :=
  ⟨by have := x.isLt; have := y.isLt; rw [OpcodeRow.matches_iff, rowOf, mask_F00F, encode, packXYN_toNat]; simp; omega, by simp [Instr.wellFormed]⟩

theorem andReg (x y : Reg) : Statement (.andReg x y) :=
  ⟨by have := x.isLt; have := y.isLt; rw [OpcodeRow.matches_iff, rowOf, mask_F00F, encode, packXYN_toNat]; simp; omega, by simp [Instr.wellFormed]⟩

theorem xorReg (x y : Reg) : Statement (.xorReg x y) :=
  ⟨by have := x.isLt; have := y.isLt; rw [OpcodeRow.matches_iff, rowOf, mask_F00F, encode, packXYN_toNat]; simp; omega, by simp [Instr.wellFormed]⟩

theorem addReg (x y : Reg) : Statement (.addReg x y) :=
  ⟨by have := x.isLt; have := y.isLt; rw [OpcodeRow.matches_iff, rowOf, mask_F00F, encode, packXYN_toNat]; simp; omega, by simp [Instr.wellFormed]⟩

theorem subReg (x y : Reg) : Statement (.subReg x y) :=
  ⟨by have := x.isLt; have := y.isLt; rw [OpcodeRow.matches_iff, rowOf, mask_F00F, encode, packXYN_toNat]; simp; omega, by simp [Instr.wellFormed]⟩

theorem shr (x y : Reg) : Statement (.shr x y) :=
  ⟨by have := x.isLt; have := y.isLt; rw [OpcodeRow.matches_iff, rowOf, mask_F00F, encode, packXYN_toNat]; simp; omega, by simp [Instr.wellFormed]⟩

theorem subn (x y : Reg) : Statement (.subn x y) :=
  ⟨by have := x.isLt; have := y.isLt; rw [OpcodeRow.matches_iff, rowOf, mask_F00F, encode, packXYN_toNat]; simp; omega, by simp [Instr.wellFormed]⟩

theorem shl (x y : Reg) : Statement (.shl x y) :=
  ⟨by have := x.isLt; have := y.isLt; rw [OpcodeRow.matches_iff, rowOf, mask_F00F, encode, packXYN_toNat]; simp; omega, by simp [Instr.wellFormed]⟩

theorem sneReg (x y : Reg) : Statement (.sneReg x y) :=
  ⟨by have := x.isLt; have := y.isLt; rw [OpcodeRow.matches_iff, rowOf, mask_F00F, encode, packXYN_toNat]; simp; omega, by simp [Instr.wellFormed]⟩

theorem ldI (nnn : Imm12) : Statement (.ldI nnn) :=
  ⟨by have := nnn.isLt; rw [OpcodeRow.matches_iff, rowOf, mask_F000, encode, packNNN_toNat]; simp; omega, by simp [Instr.wellFormed]⟩

theorem jpV0 (nnn : Imm12) : Statement (.jpV0 nnn) :=
  ⟨by have := nnn.isLt; rw [OpcodeRow.matches_iff, rowOf, mask_F000, encode, packNNN_toNat]; simp; omega, by simp [Instr.wellFormed]⟩

theorem rnd (x : Reg) (nn : Byte) : Statement (.rnd x nn) :=
  ⟨by have := nn.isLt; have := x.isLt; rw [OpcodeRow.matches_iff, rowOf, mask_F000, encode, packXNN_toNat]; simp; omega, by simp [Instr.wellFormed]⟩

theorem drw (x y : Reg) (n : Height) : Statement (.drw x y n) :=
  ⟨by have := x.isLt; have := y.isLt; have := n.isLt; rw [OpcodeRow.matches_iff, rowOf, mask_F000, encode, packXYN_toNat]; simp; omega, by simp [Instr.wellFormed]⟩

theorem skp (x : Reg) : Statement (.skp x) :=
  ⟨by have := x.isLt; rw [OpcodeRow.matches_iff, rowOf, mask_F0FF, encode, packXNN_toNat]; simp; omega, by simp [Instr.wellFormed]⟩

theorem sknp (x : Reg) : Statement (.sknp x) :=
  ⟨by have := x.isLt; rw [OpcodeRow.matches_iff, rowOf, mask_F0FF, encode, packXNN_toNat]; simp; omega, by simp [Instr.wellFormed]⟩

theorem ldVxDT (x : Reg) : Statement (.ldVxDT x) :=
  ⟨by have := x.isLt; rw [OpcodeRow.matches_iff, rowOf, mask_F0FF, encode, packXNN_toNat]; simp; omega, by simp [Instr.wellFormed]⟩

theorem ldVxK (x : Reg) : Statement (.ldVxK x) :=
  ⟨by have := x.isLt; rw [OpcodeRow.matches_iff, rowOf, mask_F0FF, encode, packXNN_toNat]; simp; omega, by simp [Instr.wellFormed]⟩

theorem ldDT (x : Reg) : Statement (.ldDT x) :=
  ⟨by have := x.isLt; rw [OpcodeRow.matches_iff, rowOf, mask_F0FF, encode, packXNN_toNat]; simp; omega, by simp [Instr.wellFormed]⟩

theorem ldST (x : Reg) : Statement (.ldST x) :=
  ⟨by have := x.isLt; rw [OpcodeRow.matches_iff, rowOf, mask_F0FF, encode, packXNN_toNat]; simp; omega, by simp [Instr.wellFormed]⟩

theorem addI (x : Reg) : Statement (.addI x) :=
  ⟨by have := x.isLt; rw [OpcodeRow.matches_iff, rowOf, mask_F0FF, encode, packXNN_toNat]; simp; omega, by simp [Instr.wellFormed]⟩

theorem ldF (x : Reg) : Statement (.ldF x) :=
  ⟨by have := x.isLt; rw [OpcodeRow.matches_iff, rowOf, mask_F0FF, encode, packXNN_toNat]; simp; omega, by simp [Instr.wellFormed]⟩

theorem ldB (x : Reg) : Statement (.ldB x) :=
  ⟨by have := x.isLt; rw [OpcodeRow.matches_iff, rowOf, mask_F0FF, encode, packXNN_toNat]; simp; omega, by simp [Instr.wellFormed]⟩

theorem stRegs (x : Reg) : Statement (.stRegs x) :=
  ⟨by have := x.isLt; rw [OpcodeRow.matches_iff, rowOf, mask_F0FF, encode, packXNN_toNat]; simp; omega, by simp [Instr.wellFormed]⟩

theorem ldRegs (x : Reg) : Statement (.ldRegs x) :=
  ⟨by have := x.isLt; rw [OpcodeRow.matches_iff, rowOf, mask_F0FF, encode, packXNN_toNat]; simp; omega, by simp [Instr.wellFormed]⟩

end Sys2Proof.Laws.FixedBits
end

