-- ==== Sys2Proof/Laws/Shape.lean ====
section
/-! SUPPORT. What every instruction can do to the state, said once: the whole-machine proofs cite `exec_cases` and unfold
no meaning for a field that it does not write. -/

namespace Sys2Proof.Machine

/-- All an instruction can do, as the record it leaves: it latches a fault and changes nothing else (the eight
instructions that can), or it writes the fields named here and no other (spec/10_state.md section 1, column "written
by"). -/
theorem exec_cases (i : Instr) (s t : State) (h : exec i s = .next t) :
    (∃ c, c ≠ .noFault ∧ t = { s with flt := c } ∧ (i = .ret ∨ (∃ a, i = .call a) ∨ (∃ x y n, i = .drw x y n) ∨
        (∃ x, i = .ldB x ∨ i = .stRegs x ∨ i = .ldRegs x ∨ i = .skp x ∨ i = .sknp x))) ∨
    (match i with
     | .cls => t = { s with fb := t.fb, chg := true, pc := s.pcn }
     | .ret => ∃ w u, s.pop = some (w, u) ∧ t = { s with sp := u.sp, pc := w }
     | .jp _ | .jpV0 _ | .seImm _ _ | .sneImm _ _ | .seReg _ _ | .sneReg _ _ | .skp _ | .sknp _ =>
       t = { s with pc := t.pc }
     | .call a => ∃ u, s.push s.pcn = some u ∧ t = { s with sp := u.sp, stack := u.stack, pc := zextNNN a }
     | .ldI _ | .addI _ | .ldF _ => t = { s with i := t.i, pc := s.pcn }
     | .drw _ _ _ => t = { s with fb := t.fb, chg := true, v := t.v, pc := s.pcn }
     | .ldDT x => t = { s with dt := s.getV x, pc := s.pcn }
     | .ldST x => t = { s with st := s.getV x, pc := s.pcn }
     | .ldB _ => t = { s with mem := t.mem, pc := s.pcn }
     | .stRegs _ => t = { s with mem := t.mem, i := t.i, pc := s.pcn }
     | .ldRegs _ => t = { s with v := t.v, i := t.i, pc := s.pcn }
     | .rnd x b => t = { s with v := s.v.set x (s.rndByte &&& b), rndIn := t.rndIn, draws := t.draws, pc := s.pcn }
     | .ldVxK _ => t = s ∨ t = { s with v := t.v, pc := s.pcn }
     | .ldImm _ _ | .addImm _ _ | .ldReg _ _ | .orReg _ _ | .andReg _ _ | .xorReg _ _ | .addReg _ _ | .subReg _ _
     | .shr _ _ | .subn _ _ | .shl _ _ | .ldVxDT _ => t = { s with v := t.v, pc := s.pcn }) := by
  cases i <;> simp only [exec, execCls, execJp, execSeImm, execSneImm, execSeReg, execLdImm, execAddImm, execLdReg,
    execOrReg, execAndReg, execXorReg, execAddReg, execSubReg, execShr, execSubn, execShl, execSneReg, execLdI, execJpV0,
    execRnd, execLdVxDT, execLdDT, execLdST, execAddI, execLdF, Host.Outcome.next.injEq] at h
  case ret =>
    unfold execRet raise at h
    rcases State.pop_cases s with ⟨w, u, he, -, -, hu⟩ | ⟨he, -⟩
    · rw [he] at h; cases h; refine .inr ⟨w, u, he, ?_⟩; rw [hu]; rfl
    · rw [he] at h; cases h; exact .inl ⟨_, by decide, rfl, .inl rfl⟩
  case call nnn =>
    unfold execCall raise at h
    rcases State.push_cases s s.pcn with ⟨u, he, -, -, -, hu⟩ | ⟨he, -⟩
    · rw [he] at h; cases h; refine .inr ⟨u, he, ?_⟩; rw [hu]; rfl
    · rw [he] at h; cases h; exact .inl ⟨_, by decide, rfl, by simp⟩
  case drw x y n =>
    unfold execDrw raise at h
    split at h <;> cases h
    · exact .inl ⟨_, by decide, rfl, by simp⟩
    · exact .inr rfl
  case ldB x =>
    unfold execLdB raise at h
    rcases State.storeAtI_cases s (bcdDigits (s.getV x)) with ⟨-, he⟩ | ⟨-, -, he⟩ <;> rw [he] at h <;> cases h
    · exact .inr rfl
    · exact .inl ⟨_, by decide, rfl, by simp⟩
  case stRegs x =>
    unfold execStRegs raise at h
    rcases State.storeAtI_cases s (s.regsUpTo x) with ⟨-, he⟩ | ⟨-, -, he⟩ <;> rw [he] at h <;> cases h
    · exact .inr rfl
    · exact .inl ⟨_, by decide, rfl, by simp⟩
  case ldRegs x =>
    unfold execLdRegs raise at h
    split at h <;> cases h
    · exact .inl ⟨_, by decide, rfl, by simp⟩
    · exact .inr rfl
  case skp x => unfold execSkp raise at h; split at h <;> cases h; exacts [.inl ⟨_, by decide, rfl, by simp⟩, .inr rfl]
  case sknp x => unfold execSknp raise at h; split at h <;> cases h; exacts [.inl ⟨_, by decide, rfl, by simp⟩, .inr rfl]
  case ldVxK x => unfold execLdVxK at h; split at h <;> cases h; exacts [.inr (.inl rfl), .inr (.inr rfl)]
  case rnd x nn =>
    subst h; refine .inr ?_; dsimp only; unfold State.takeRnd; split <;> rfl
  all_goals (subst h; exact .inr rfl)

end Sys2Proof.Machine
end

