-- ==== Sys2Proof/Machine/Disasm.lean ====
section
/-! DEFINITION. The assembler spelling of a word (spec/30_encoding.md R90). Nothing in the semantics depends on it. -/

namespace Sys2Proof.Machine

/-- One hexadecimal digit. -/
def hexDigit (k : Nat) : Char := "0123456789ABCDEF".toList.getD (k % 16) '0'

/-- `n` in hexadecimal, `digits` of them. -/
def hexDigits : Nat → Nat → List Char
  | 0, _ => []
  | d + 1, n => hexDigits d (n / 16) ++ [hexDigit n]

/-- A number: `0x` and its digits. -/
def hexText (digits n : Nat) : String := "0x" ++ String.ofList (hexDigits digits n)

/-- A register: `V0` to `VF`. -/
def regText (x : Reg) : String := "V" ++ String.ofList [hexDigit x.val]

/-- A mnemonic with its operands, separated by a comma, destination first. -/
def asmText (mnemonic : String) : List String → String
  | [] => mnemonic
  | ops => mnemonic ++ " " ++ String.intercalate ", " ops

/-- An ignored field `y`, printed as a comment where it is not 0 (R90). -/
def ignoredText (y : Reg) : String := if y.val = 0 then "" else " ; y = " ++ regText y

/-- The assembler spelling of an instruction (R86, R90). -/
def instrText : Instr → String
  | .cls => "CLS"
  | .ret => "RET"
  | .jp nnn => asmText "JP" [hexText 3 nnn.toNat]
  | .call nnn => asmText "CALL" [hexText 3 nnn.toNat]
  | .seImm x nn => asmText "SE" [regText x, hexText 2 nn.toNat]
  | .sneImm x nn => asmText "SNE" [regText x, hexText 2 nn.toNat]
  | .seReg x y => asmText "SE" [regText x, regText y]
  | .ldImm x nn => asmText "LD" [regText x, hexText 2 nn.toNat]
  | .addImm x nn => asmText "ADD" [regText x, hexText 2 nn.toNat]
  | .ldReg x y => asmText "LD" [regText x, regText y]
  | .orReg x y => asmText "OR" [regText x, regText y]
  | .andReg x y => asmText "AND" [regText x, regText y]
  | .xorReg x y => asmText "XOR" [regText x, regText y]
  | .addReg x y => asmText "ADD" [regText x, regText y]
  | .subReg x y => asmText "SUB" [regText x, regText y]
  | .shr x y => asmText "SHR" [regText x] ++ ignoredText y
  | .subn x y => asmText "SUBN" [regText x, regText y]
  | .shl x y => asmText "SHL" [regText x] ++ ignoredText y
  | .sneReg x y => asmText "SNE" [regText x, regText y]
  | .ldI nnn => asmText "LD" ["I", hexText 3 nnn.toNat]
  | .jpV0 nnn => asmText "JP" ["V0", hexText 3 nnn.toNat]
  | .rnd x nn => asmText "RND" [regText x, hexText 2 nn.toNat]
  | .drw x y n => asmText "DRW" [regText x, regText y, hexText 1 n.val]
  | .skp x => asmText "SKP" [regText x]
  | .sknp x => asmText "SKNP" [regText x]
  | .ldVxDT x => asmText "LD" [regText x, "DT"]
  | .ldVxK x => asmText "LD" [regText x, "K"]
  | .ldDT x => asmText "LD" ["DT", regText x]
  | .ldST x => asmText "LD" ["ST", regText x]
  | .addI x => asmText "ADD" ["I", regText x]
  | .ldF x => asmText "LD" ["F", regText x]
  | .ldB x => asmText "LD" ["B", regText x]
  | .stRegs x => asmText "LD" ["[I]", regText x]
  | .ldRegs x => asmText "LD" [regText x, "[I]"]

/-- The spelling of any word: an unknown opcode is a raw word, `DW 0xhhhh` (R90). -/
def disassemble (op : Word) : String :=
  match decodeWord op with
  | .ok i => instrText i
  | .error _ => asmText "DW" [hexText 4 op.toNat]

end Sys2Proof.Machine
end

