-- ==== Sys2Proof/Tests/Slice0.lean ====
section
/-! SUPPORT. Tests of the model: the checks of WellFormed, the decoding of one written-out word per instruction, single
steps and single events whose expected results are those of spec/95_test_vectors.md (the vector is named in each
docstring), and the witnesses that the hypotheses of the obligations can be met. -/

namespace Sys2Proof.Tests

open Sys2Proof.Machine

/-! ## Helpers -/

/-- A state after reset, changed by `f`, with the opcode `w` where the next step fetches (Conventions of Part 2). -/
def start (w : Nat) (f : State → State) : State := (f State.reset).withFetchWord 16 w

/-- The next state of a result. -/
def nextOf : Result → Option State
  | .next t => some t
  | .fault _ => none
  | .refused _ => none

/-- One step from `start`, seen through `g`. -/
def see {α : Type} (w : Nat) (f : State → State) (g : State → α) : Option α := (nextOf (step (start w f))).map g

/-- Bytes put in memory from `a` up. -/
def stored (a : Nat) (bs : List Byte) (s : State) : State := { s with mem := Memory.putAll s.mem a bs }

/-- Pixels set. -/
def lit (ps : List (Nat × Nat)) (s : State) : State :=
  { s with fb := ps.foldl (fun f p => if h : p.1 < 64 ∧ p.2 < 32 then f.set p.1 (f[p.1].set p.2 true) else f) s.fb }

/-- Keys pressed. -/
def pressed (ks : List Key) (s : State) : State := { s with key := ks.foldl (fun (k : Vector Bool 16) (j : Key) => k.set j true) s.key }

/-- Some pixels of a state. -/
def pixels (ps : List (Nat × Nat)) (s : State) : List Bool := ps.map fun p => s.fb.pixel p.1 p.2

/-- Some bytes of a state. -/
def bytes (as : List Nat) (s : State) : List (Option Byte) := as.map fun a => Memory.read s.mem a

/-! ## WellFormed: each check refuses an ill-formed term (spec/30_encoding.md R82, spec/70_reset_and_hazards.md R263) -/

theorem test_nibble_range : nibbleOk 15 = true ∧ nibbleOk 16 = false := by decide
theorem test_nn_range : nnOk 255 = true ∧ nnOk 256 = false := by decide
theorem test_nnn_range : nnnOk 4095 = true ∧ nnnOk 4096 = false := by decide
/-- S5: 3584 bytes are taken, 3585 are not. -/
theorem test_image_range (b : Byte) :
    imageOk (List.replicate 3584 b) = true ∧ imageOk (List.replicate 3585 b) = false := by
  unfold imageOk
  rw [List.length_replicate, List.length_replicate]
  decide
theorem test_well_formed : (Instr.drw 15 15 15).wellFormed = true ∧ (Instr.jp 0xFFF).wellFormed = true := by decide

/-! ## Decoding: a word of each row of R86, written out bit by bit from its pattern -/

theorem test_decode_cls : decodeWord 0b0000000011100000#16 = .ok .cls := by decide
theorem test_decode_ret : decodeWord 0b0000000011101110#16 = .ok .ret := by decide
theorem test_decode_jp : decodeWord 0b0001101010111100#16 = .ok (.jp 0xABC) := by decide
theorem test_decode_call : decodeWord 0b0010001000010000#16 = .ok (.call 0x210) := by decide
theorem test_decode_seImm : decodeWord 0b0011101001000010#16 = .ok (.seImm 0xA 0x42) := by decide
theorem test_decode_sneImm : decodeWord 0b0100101001000010#16 = .ok (.sneImm 0xA 0x42) := by decide
theorem test_decode_seReg : decodeWord 0b0101000100100000#16 = .ok (.seReg 1 2) := by decide
theorem test_decode_ldImm : decodeWord 0b0110101001011100#16 = .ok (.ldImm 0xA 0x5C) := by decide
theorem test_decode_addImm : decodeWord 0b0111000011111111#16 = .ok (.addImm 0 0xFF) := by decide
theorem test_decode_ldReg : decodeWord 0b1000000100100000#16 = .ok (.ldReg 1 2) := by decide
theorem test_decode_orReg : decodeWord 0b1000000100100001#16 = .ok (.orReg 1 2) := by decide
theorem test_decode_andReg : decodeWord 0b1000000100100010#16 = .ok (.andReg 1 2) := by decide
theorem test_decode_xorReg : decodeWord 0b1000000100100011#16 = .ok (.xorReg 1 2) := by decide
theorem test_decode_addReg : decodeWord 0b1000111100010100#16 = .ok (.addReg 0xF 1) := by decide
theorem test_decode_subReg : decodeWord 0b1000000100100101#16 = .ok (.subReg 1 2) := by decide
theorem test_decode_shr : decodeWord 0b1000001000110110#16 = .ok (.shr 2 3) := by decide
theorem test_decode_subn : decodeWord 0b1000000100100111#16 = .ok (.subn 1 2) := by decide
theorem test_decode_shl : decodeWord 0b1000001000111110#16 = .ok (.shl 2 3) := by decide
theorem test_decode_sneReg : decodeWord 0b1001000100100000#16 = .ok (.sneReg 1 2) := by decide
theorem test_decode_ldI : decodeWord 0b1010111111111111#16 = .ok (.ldI 0xFFF) := by decide
theorem test_decode_jpV0 : decodeWord 0b1011001100000000#16 = .ok (.jpV0 0x300) := by decide
theorem test_decode_rnd : decodeWord 0b1100000111110000#16 = .ok (.rnd 1 0xF0) := by decide
theorem test_decode_drw : decodeWord 0b1101000100100101#16 = .ok (.drw 1 2 5) := by decide
theorem test_decode_skp : decodeWord 0b1110001110011110#16 = .ok (.skp 3) := by decide
theorem test_decode_sknp : decodeWord 0b1110001110100001#16 = .ok (.sknp 3) := by decide
theorem test_decode_ldVxDT : decodeWord 0b1111000100000111#16 = .ok (.ldVxDT 1) := by decide
theorem test_decode_ldVxK : decodeWord 0b1111010100001010#16 = .ok (.ldVxK 5) := by decide
theorem test_decode_ldDT : decodeWord 0b1111000000010101#16 = .ok (.ldDT 0) := by decide
theorem test_decode_ldST : decodeWord 0b1111000000011000#16 = .ok (.ldST 0) := by decide
theorem test_decode_addI : decodeWord 0b1111000000011110#16 = .ok (.addI 0) := by decide
theorem test_decode_ldF : decodeWord 0b1111000000101001#16 = .ok (.ldF 0) := by decide
theorem test_decode_ldB : decodeWord 0b1111000000110011#16 = .ok (.ldB 0) := by decide
theorem test_decode_stRegs : decodeWord 0b1111001001010101#16 = .ok (.stRegs 2) := by decide
theorem test_decode_ldRegs : decodeWord 0b1111001001100101#16 = .ok (.ldRegs 2) := by decide
/-- TF1, TF3, TF4, TF5, TC39, TF7, TF9: unknown opcodes. -/
theorem test_decode_unknown :
    ([0x0000, 0x00E1, 0x01E0, 0x5001, 0x8018, 0xE09F, 0xF075] : List Word).all
      (fun w => decide (decodeWord w = .error (.unknownOpcode w))) = true := by decide
/-- R65: high byte first; the rest of the bytes is given back; one byte is no instruction. -/
theorem test_decode_bytes : decode [0xD1, 0x25, 0x77] = .ok (.drw 1 2 5, [0x77]) ∧ decode [0xD1] = .error .truncated := by
  decide
/-- S10: D00's own words. -/
theorem test_decode_source : decodeTableWord 16 0x6005 = some (.ldImm 0 5) ∧
    decodeTableWord 16 0x7003 = some (.addImm 0 3) := by decide
/-- R90: the spelling, an ignored field as a comment, a raw word. -/
theorem test_disassemble : disassemble 0xF255 = "LD [I], V2" ∧ disassemble 0x8236 = "SHR V2 ; y = V3" ∧
    disassemble 0x5001 = "DW 0x5001" := by decide

/-! ## Display -/

/-- TA1. -/
theorem test_cls : see 0x00E0 (lit [(0, 0), (63, 31)]) (fun t => (pixels [(0, 0), (63, 31)] t, t.chg, t.pc)) =
    some ([false, false], true, 0x202) := by decide
/-- TA10: two pixels collide, two are set. -/
theorem test_drw_collides : see 0xD211 (fun s => lit [(0, 0), (1, 0), (2, 0), (3, 0)] (stored 0x300 [0xF0] { s.setV 2 2 with i := 0x300 }))
    (fun t => (pixels [(0, 0), (1, 0), (2, 0), (3, 0), (4, 0), (5, 0), (6, 0)] t, t.getV 15, t.chg)) =
    some ([true, true, false, false, true, true, false], 1, true) := by decide
/-- TA4: clipped right and bottom, nothing wraps. -/
theorem test_drw_clips : see 0xD125 (fun s => { (s.setV 1 0x3D).setV 2 0x1D with i := 0x50 })
    (fun t => (pixels [(61, 29), (63, 29), (62, 30), (61, 31), (0, 29), (61, 0)] t, t.getV 15)) =
    some ([true, true, false, true, false, false], 0) := by decide

/-! ## Control transfer -/

/-- TB1. -/
theorem test_jp : see 0x1ABC id (·.pc) = some 0xABC := by decide
/-- TB5: the pushed address passes 0xFFF. -/
theorem test_call : see 0x2300 (fun s => { s with pc := 0xFFE }) (fun t => (t.pc, t.sp, t.stack[0])) =
    some (0x300, 1, 0x1000) := by decide
/-- TB7. -/
theorem test_call_full : see 0x2300 (fun s => { s with sp := 16 }) (fun t => (t.pc, t.sp, t.flt)) =
    some (0x200, 16, .stackOverflow) := by decide
/-- TB8: the entry stays. -/
theorem test_ret : see 0x00EE (fun s => { s with sp := 1, stack := s.stack.set 0 0x456 })
    (fun t => (t.pc, t.sp, t.stack[0])) = some (0x456, 0, 0x456) := by decide
/-- TB9. -/
theorem test_ret_empty : see 0x00EE id (fun t => (t.pc, t.flt)) = some (0x200, .stackUnderflow) := by decide
/-- TB11, TB12. -/
theorem test_seImm : see 0x3A42 (·.setV 10 0x42) (·.pc) = some 0x204 ∧ see 0x3A42 (·.setV 10 0x43) (·.pc) = some 0x202 := by
  decide
/-- TB13, TB14. -/
theorem test_sneImm : see 0x4A42 (·.setV 10 0x42) (·.pc) = some 0x202 ∧ see 0x4A42 (·.setV 10 0x43) (·.pc) = some 0x204 := by
  decide
/-- TB15, TB16. -/
theorem test_seReg : see 0x5330 (·.setV 3 0x77) (·.pc) = some 0x204 ∧
    see 0x5120 (fun s => (s.setV 1 1).setV 2 2) (·.pc) = some 0x202 := by decide
/-- TB17, TB18. -/
theorem test_sneReg : see 0x9330 (·.setV 3 0x77) (·.pc) = some 0x202 ∧
    see 0x9120 (fun s => (s.setV 1 1).setV 2 2) (·.pc) = some 0x204 := by decide
/-- TB22: the largest PC. -/
theorem test_jpV0 : see 0xBFFF (·.setV 0 0xFF) (·.pc) = some 0x10FE := by decide
/-- TB23: V0, not Vx. -/
theorem test_jpV0_is_V0 : see 0xB300 (·.setV 3 0x55) (·.pc) = some 0x300 := by decide

/-! ## Registers, arithmetic, logic -/

/-- TC1. -/
theorem test_ldImm : see 0x6A5C (·.setV 10 0x11) (fun t => (t.getV 10, t.pc)) = some (0x5C, 0x202) := by decide
/-- TC4: wraps, VF untouched. -/
theorem test_addImm : see 0x7001 (fun s => (s.setV 0 0xFF).setV 15 0x55) (fun t => (t.getV 0, t.getV 15)) =
    some (0, 0x55) := by decide
/-- TC6. -/
theorem test_ldReg : see 0x8120 (fun s => (s.setV 1 0x11).setV 2 0x22) (fun t => (t.getV 1, t.getV 2)) =
    some (0x22, 0x22) := by decide
/-- TC7. -/
theorem test_orReg : see 0x8011 (fun s => ((s.setV 0 0x55).setV 1 0xAA).setV 15 0x77) (fun t => (t.getV 0, t.getV 15)) =
    some (0xFF, 0x77) := by decide
/-- TC8. -/
theorem test_andReg : see 0x8012 (fun s => ((s.setV 0 0x5F).setV 1 0xF5).setV 15 0x77) (fun t => (t.getV 0, t.getV 15)) =
    some (0x55, 0x77) := by decide
/-- TC9. -/
theorem test_xorReg : see 0x8013 (fun s => ((s.setV 0 0x5F).setV 1 0xF5).setV 15 0x77) (fun t => (t.getV 0, t.getV 15)) =
    some (0xAA, 0x77) := by decide
/-- TC13: a sum of 255 clears VF. -/
theorem test_addReg : see 0x8014 (fun s => ((s.setV 0 0x80).setV 1 0x7F).setV 15 1) (fun t => (t.getV 0, t.getV 15)) =
    some (0xFF, 0) := by decide
/-- TC15: with x = F the flag wins. -/
theorem test_addReg_flag_last : see 0x8F14 (fun s => (s.setV 15 0xF0).setV 1 0x20) (·.getV 15) = some 1 := by decide
/-- TC20: equal operands do not borrow. -/
theorem test_subReg : see 0x8015 (fun s => (s.setV 0 0x20).setV 1 0x20) (fun t => (t.getV 0, t.getV 15)) =
    some (0, 1) := by decide
/-- TC23: y = F, the old VF is the operand. -/
theorem test_subReg_reads_first : see 0x80F5 (fun s => (s.setV 0 5).setV 15 6) (fun t => (t.getV 0, t.getV 15)) =
    some (0xFF, 0) := by decide
/-- TC25: V1 is ignored. -/
theorem test_shr : see 0x8016 (fun s => (s.setV 0 1).setV 1 0xAA) (fun t => (t.getV 0, t.getV 15)) = some (0, 1) := by
  decide
/-- TC28. -/
theorem test_subn : see 0x8017 (fun s => ((s.setV 0 0x20).setV 1 0x10).setV 15 1) (fun t => (t.getV 0, t.getV 15)) =
    some (0xF0, 0) := by decide
/-- TC32: V1 is ignored. -/
theorem test_shl : see 0x801E (fun s => (s.setV 0 0x80).setV 1 0xAA) (fun t => (t.getV 0, t.getV 15)) = some (0, 1) := by
  decide
/-- TC36: the host's byte, under the mask, for this step only. -/
theorem test_rnd : (nextOf (apply (.step 0xA7) (start 0xC1F0 id))).map (fun t => (t.getV 1, t.pc, t.rndIn)) =
    some (0xA0, 0x202, none) := by decide
/-- TC37: the mask 0 gives 0, whatever the byte, a free one too. -/
theorem test_rnd_free : see 0xC100 (·.setV 1 0x33) (fun t => (t.pc, t.draws)) = some (0x202, 1) := by decide

/-! ## Index register and memory -/

/-- TD1. -/
theorem test_ldI : see 0xAFFF id (·.i) = some 0xFFF := by decide
/-- TD3: wraps modulo 2^16, no flag. -/
theorem test_addI : see 0xF01E (fun s => { (s.setV 0 1).setV 15 0x22 with i := 0xFFFF }) (fun t => (t.i, t.getV 15)) =
    some (0, 0x22) := by decide
/-- TD5: the low nibble only. -/
theorem test_ldF : see 0xF029 (·.setV 0 0x1A) (·.i) = some 0x82 := by decide
/-- TD9: 100, at the last address that fits. -/
theorem test_ldB : see 0xF033 (fun s => stored 0xFFD [9, 9, 9] { s.setV 0 0x64 with i := 0xFFD })
    (fun t => (bytes [0xFFD, 0xFFE, 0xFFF] t, t.i)) = some ([some 1, some 0, some 0], 0xFFD) := by decide
/-- TD11: nothing is written. -/
theorem test_ldB_faults : see 0xF033 (fun s => { s.setV 0 0x64 with i := 0xFFE })
    (fun t => (bytes [0xFFE, 0xFFF, 0x1000] t, t.pc, t.flt)) = some ([some 0, some 0, none], 0x200, .addressRange) := by
  decide
/-- TD12: three bytes, I moves by 3, V3 is not stored. -/
theorem test_stRegs : see 0xF255 (fun s => { (((s.setV 0 0x11).setV 1 0x22).setV 2 0x33).setV 3 0x44 with i := 0x400 })
    (fun t => (bytes [0x400, 0x401, 0x402, 0x403] t, t.i)) =
    some ([some 0x11, some 0x22, some 0x33, some 0], 0x403) := by decide
/-- TD15: no partial store. -/
theorem test_stRegs_faults : see 0xF255 (fun s => { (s.setV 0 0xAA).setV 1 0xBB with i := 0xFFE })
    (fun t => (bytes [0xFFE, 0xFFF] t, t.i, t.flt)) = some ([some 0, some 0], 0xFFE, .addressRange) := by decide
/-- TD18. -/
theorem test_ldRegs : see 0xF265 (fun s => stored 0x300 [1, 2, 3, 4] { s with i := 0x300 })
    (fun t => (t.getV 0, t.getV 1, t.getV 2, t.getV 3, t.i)) = some (1, 2, 3, 0, 0x303) := by decide
/-- TD19. -/
theorem test_ldRegs_faults : see 0xF065 (fun s => { s with i := 0x1000 }) (fun t => (t.pc, t.i, t.flt)) =
    some (0x200, 0x1000, .addressRange) := by decide

/-! ## Keys and timers -/

/-- TE1, TE2. -/
theorem test_skp : see 0xE39E (fun s => pressed [7] (s.setV 3 7)) (·.pc) = some 0x204 ∧
    see 0xE39E (·.setV 3 7) (·.pc) = some 0x202 := by decide
/-- TE4. -/
theorem test_skp_faults : see 0xE09E (·.setV 0 0x10) (fun t => (t.pc, t.flt)) = some (0x200, .keyIndex) := by decide
/-- TE5, TE6. -/
theorem test_sknp : see 0xE3A1 (·.setV 3 7) (·.pc) = some 0x204 ∧
    see 0xE3A1 (fun s => pressed [7] (s.setV 3 7)) (·.pc) = some 0x202 := by decide
/-- TE7. -/
theorem test_sknp_faults : see 0xE0A1 (·.setV 0 0xFF) (fun t => (t.pc, t.flt)) = some (0x200, .keyIndex) := by decide
/-- TE8. -/
theorem test_ldVxDT : see 0xF107 (fun s => { s with dt := 0x2A }) (fun t => (t.getV 1, t.dt)) = some (0x2A, 0x2A) := by
  decide
/-- TE12: no key, nothing changes. -/
theorem test_ldVxK_waits : see 0xF50A (·.setV 5 9) (fun t => (t.getV 5, t.pc)) = some (9, 0x200) := by decide
/-- TE13: the highest index wins. -/
theorem test_ldVxK : see 0xF50A (fun s => pressed [2, 7, 11] (s.setV 5 9)) (fun t => (t.getV 5, t.pc)) =
    some (0x0B, 0x202) := by decide
/-- TE9. -/
theorem test_ldDT : see 0xF015 (·.setV 0 3) (fun t => (t.dt, t.st)) = some (3, 0) := by decide
/-- TE11. -/
theorem test_ldST : see 0xF018 (·.setV 0 2) (fun t => (t.st, t.soundActive, t.dt)) = some (2, true, 0) := by decide

/-! ## Fetch, unknown opcodes, fault gate -/

/-- TF1, TF7: only PC moves; V0 = 0x10 is no key index here. -/
theorem test_unknown : see 0x0000 id (·.pc) = some 0x202 ∧
    see 0xE09F (·.setV 0 0x10) (fun t => (t.pc, t.flt)) = some (0x202, .noFault) := by decide
/-- TF11, TF12: the last address a fetch can use, and the first it cannot. -/
theorem test_fetch_edge : see 0x6012 (fun s => { s with pc := 0xFFE }) (fun t => (t.pc, t.getV 0)) = some (0x1000, 0x12) ∧
    see 0x6012 (fun s => { s with pc := 0xFFF }) (fun t => (t.pc, t.flt)) = some (0xFFF, .addressRange) := by decide
/-- TF14: an odd PC is legal. -/
theorem test_fetch_odd : see 0x6012 (fun s => { s with pc := 0x201 }) (fun t => (t.pc, t.getV 0)) = some (0x203, 0x12) := by
  decide
/-- TG4: tick works while faulted, step does not. -/
theorem test_fault_gate :
    (nextOf (runEvents [.tick, .step 0] { State.reset with flt := .addressRange, dt := 2, pc := 0xFFF })).map
      (fun t => (t.dt, t.pc, t.flt)) = some (1, 0xFFF, .addressRange) := by decide

/-! ## Events -/

/-- TG2: independent counters. -/
theorem test_tick : (nextOf (apply .tick { State.reset with dt := 1, st := 0xFF })).map (fun t => (t.dt, t.st)) =
    some (0, 0xFE) := by decide
/-- TG1: floor at zero. -/
theorem test_tick_floor : (nextOf (apply .tick State.reset)).map (fun t => (t.dt, t.st)) = some (0, 0) := by decide
/-- TG5. -/
theorem test_reset : nextOf (apply .reset (pressed [4] { State.reset.setV 2 0x33 with flt := .stackOverflow, sp := 16, chg := true })) =
    some State.reset := by decide
/-- P1's image at 0x200; the fault is cleared; V3 is reset (S5). -/
theorem test_load :
    (nextOf (apply (.load [0x60, 0x05, 0x70, 0x03]) { State.reset.setV 3 9 with flt := .stackUnderflow })).map
      (fun t => (bytes [0x1FF, 0x200, 0x203, 0x204, 0x50] t, t.flt, t.getV 3)) =
    some ([some 0, some 0x60, some 0x03, some 0, some 0xF0], .noFault, 0) := by decide
/-- TG12: a too long image changes nothing. -/
theorem test_load_too_large :
    nextOf (apply (.load (List.replicate 3585 0xAB)) (State.reset.setV 3 9)) = some (State.reset.setV 3 9) ∧
    loadReport (List.replicate 3585 (0xAB : Byte)) = .imageTooLarge := by
  have h : loadReport (List.replicate 3585 (0xAB : Byte)) = .imageTooLarge := by
    unfold loadReport; rw [(test_image_range 0xAB).2]; rfl
  exact ⟨by simp only [apply, loadEvent, h, nextOf], h⟩
/-- TG9. -/
theorem test_key_set : (nextOf (runEvents [.keySet 7 true, .keySet 7 true] State.reset)).map
    (fun t => (t.keyDown 7, t.keyDown 6)) = some (true, false) ∧
    (nextOf (runEvents [.keySet 7 true, .keySet 7 false] State.reset)).map (·.keyDown 7) = some false := by decide
/-- TG8, TG10. -/
theorem test_ack_changed : (nextOf (apply .ackChanged { State.reset with chg := true, flt := .stackUnderflow })).map
    (fun t => (t.chg, t.flt)) = some (false, .stackUnderflow) := by decide
/-- R48. -/
theorem test_serialise : serialise [.tick, .step 1, .keySet 3 true, .load [], .reset, .ackChanged] =
    [.reset, .load [], .keySet 3 true, .ackChanged, .step 1, .tick] := by decide
/-- R47: the outputs of a faulted state with sound. -/
theorem test_outputs : ({ State.reset with flt := .keyIndex, st := 1 } : State).outputs.flt = 4 ∧
    ({ State.reset with flt := .keyIndex, st := 1 } : State).outputs.soundActive = true := by decide

/-! ## Witnesses: states and operands that meet the hypotheses of each obligation, clause by clause -/

/-- Any instruction, as the hypotheses of the whole-machine statements ask: `exec` answers a next state. -/
def runs (i : Instr) (f : State → State) : Option State := nextOf (exec i (f State.reset))

/-- StepRunsTheDecodedInstruction, FetchReadsBigEndianOrFaults (second clause): at the last address a fetch can use. -/
theorem witness_step : (start 0x6012 fun s => { s with pc := 0xFFE }).flt = .noFault ∧
    (start 0x6012 fun s => { s with pc := 0xFFE }).pc.toNat ≤ 0xFFE ∧
    decode (let s := start 0x6012 fun s => { s with pc := 0xFFE }
      [Memory.byte s.mem s.pc.toNat, Memory.byte s.mem (s.pc.toNat + 1)]) = .ok (.ldImm 0 0x12, []) ∧
    (Instr.ldImm 0 0x12).wellFormed = true := by decide

/-- FetchReadsBigEndianOrFaults, first clause: the first address a fetch cannot use. -/
theorem witness_fetch_fault : ({ State.reset with pc := 0xFFF } : State).flt = .noFault ∧
    0xFFE < ({ State.reset with pc := 0xFFF } : State).pc.toNat := by decide

/-- FetchReadsBigEndianOrFaults, DecodeFollowsTheOpcodeTable (clauses 1 and 2). -/
theorem witness_decode : decodeWord 0x801E = .ok (.shl 0 1) ∧ ∃ r ∈ opcodeTable, r.matches 0x801E = true := by decide

/-- UnknownOpcodeOnlyAdvancesThePc, DecodeFollowsTheOpcodeTable (clause 3), NextPcFollowsTheSequencerTable (the unknown
opcode): a word that matches no row, fetched with no fault latched. -/
theorem witness_unknown : (start 0x5001 id).flt = .noFault ∧ (start 0x5001 id).fetch = some 0x5001 ∧
    (∀ r ∈ opcodeTable, r.matches 0x5001 = false) ∧ decodeWord 0x5001 = .error (.unknownOpcode 0x5001) := by decide

/-- UnknownOpcodeOnlyAdvancesThePc, third clause: three zero bytes to the top of memory (an odd `PC`), two steps. -/
theorem witness_walk : ({ State.reset with pc := 0xFFD } : State).flt = .noFault ∧
    ({ State.reset with pc := 0xFFD } : State).pc.toNat ≤ 0x1000 ∧
    (∀ a, 0xFFD ≤ a → a ≤ 0xFFF → Memory.read ({ State.reset with pc := 0xFFD } : State).mem a = some 0) ∧
    ([7, 9] : List Byte).length = (0x1000 - ({ State.reset with pc := 0xFFD } : State).pc.toNat) / 2 + 1 := by
  refine ⟨rfl, by decide, fun a h1 h2 => ?_, by decide⟩
  obtain rfl | rfl | rfl : a = 0xFFD ∨ a = 0xFFE ∨ a = 0xFFF := by omega
  all_goals decide

/-- LatchedFaultHaltsTheEngine: a faulted state, and the two events that clear the latch. -/
theorem witness_latched : ({ State.reset with flt := .keyIndex } : State).flt ≠ .noFault ∧
    (nextOf (apply .reset { State.reset with flt := .keyIndex })).map (·.flt) = some .noFault ∧
    (nextOf (apply (.load [0x12]) { State.reset with flt := .keyIndex })).map (·.flt) = some .noFault := by decide

/-- NextPcFollowsTheSequencerTable, StepNeverWritesTheHostsState (third clause): the gate, a fault taken, an instruction. -/
theorem witness_sequencer :
    (nextOf (step { State.reset with flt := .keyIndex })).map (·.flt) = some .keyIndex ∧
    see 0x00EE id (·.flt) = some .stackUnderflow ∧ see 0x1ABC id (·.flt) = some .noFault := by decide

/-- FaultsArePrecise, FaultsAreLatchedExactlyWhenTheTableSays: no fault before, each cause after. -/
theorem witness_faults : State.reset.flt = .noFault ∧
    see 0x2300 (fun s => { s with sp := 16 }) (·.flt) = some .stackOverflow ∧
    see 0x00EE id (·.flt) = some .stackUnderflow ∧
    see 0xD122 (fun s => { s with i := 0xFFF }) (·.flt) = some .addressRange ∧
    see 0xE09E (·.setV 0 0x10) (·.flt) = some .keyIndex := by decide

/-- FaultsAreLatchedExactlyWhenTheTableSays: one short of each boundary no fault is latched. -/
theorem witness_no_faults : see 0x2300 (fun s => { s with sp := 15 }) (·.flt) = some .noFault ∧
    see 0x00EE (fun s => { s with sp := 1 }) (·.flt) = some .noFault ∧
    see 0xD121 (fun s => { s with i := 0xFFF }) (·.flt) = some .noFault ∧
    see 0xD010 (fun s => { s with i := 0xFFFF }) (·.flt) = some .noFault ∧
    see 0xF033 (fun s => { s with i := 0xFFD }) (·.flt) = some .noFault ∧
    see 0xF155 (fun s => { s with i := 0xFFE }) (·.flt) = some .noFault ∧
    see 0xE09E (·.setV 0 0x0F) (·.flt) = some .noFault := by decide

/-- `executes`, as FaultsAreLatchedExactlyWhenTheTableSays and StepEventSuppliesTheRandomByte (first clause) ask it. -/
theorem witness_executes : executes (start 0xC1F0 id) (.rnd 1 0xF0) := ⟨rfl, 0xC1F0, by decide, by decide⟩

/-- StepEventSuppliesTheRandomByte, second clause: a step that runs no `Cxnn`. -/
theorem witness_no_rnd (x : Reg) (nn : Byte) : ¬ executes (start 0x1ABC id) (.rnd x nn) := by
  rintro ⟨-, op, ho, hd⟩
  have h : (start 0x1ABC id).fetch = some 0x1ABC := by decide
  rw [h] at ho
  obtain rfl := Option.some.inj ho
  exact absurd (hd.symm.trans (by decide : decodeWord 0x1ABC = .ok (.jp 0xABC))) (by simp)

/-- StepNeverWritesTheHostsState, OnlyTheNamedInstructionsWriteEachPart: steps that do change the timers, `I`, the stack,
`SP` and memory. -/
theorem witness_written_parts :
    (runs (.ldDT 0) (·.setV 0 3)).map (·.dt) = some 3 ∧ (runs (.ldST 0) (·.setV 0 3)).map (·.st) = some 3 ∧
    (runs (.ldI 0x123) id).map (·.i) = some 0x123 ∧ (runs (.call 0x300) id).map (fun t => (t.sp, t.stack[0])) = some (1, 0x202) ∧
    (runs (.stRegs 0) (fun s => { s.setV 0 9 with i := 0x300 })).map (·.mem) = some [(0x300, 9)] ∧
    (runs .cls (lit [(1, 1)])).map (fun t => (t.chg, t.fb.pixel 1 1)) = some (true, false) ∧
    (runs (.rnd 0 0) id).map (·.draws) = some 1 := by decide

/-- UnreadStateDoesNotMatter: an instruction that every clause speaks of answers a next state. -/
theorem witness_unread : (runs (.jp 0xABC) id).isSome = true ∧ (∀ x nn, Instr.jp 0xABC ≠ .rnd x nn) ∧
    (∀ x, Instr.jp 0xABC ≠ .ldVxDT x) ∧ (∀ x, Instr.jp 0xABC ≠ .ldDT x) ∧ (∀ x, Instr.jp 0xABC ≠ .ldST x) ∧
    (∀ x, Instr.jp 0xABC ≠ .skp x) ∧ (∀ x, Instr.jp 0xABC ≠ .sknp x) ∧ (∀ x, Instr.jp 0xABC ≠ .ldVxK x) ∧
    Instr.jp 0xABC ≠ .cls ∧ ∀ x y n, Instr.jp 0xABC ≠ .drw x y n := by
  refine ⟨by decide, ?_⟩
  simp

/-- OnlyFlagWritersAndNamedDestinationsChangeVf, FlagWritersLeaveZeroOrOne: VF changes by a flag (TC11, TA10's kind) and as a
named destination (TC2, TD20's kind). -/
theorem witness_vf : (runs (.addReg 0 1) (fun s => (s.setV 0 0xFF).setV 1 1)).map (fun t => (t.getV Reg.vf, t.flt)) = some (1, .noFault) ∧
    (runs (.drw 0 0 1) (fun s => lit [(0, 0)] { s with i := 0x50 })).map (fun t => (t.getV Reg.vf, t.flt)) = some (1, .noFault) ∧
    (runs (.ldImm Reg.vf 0x99) id).map (·.getV Reg.vf) = some 0x99 ∧
    (runs (.ldRegs Reg.vf) (fun s => { s with i := 0x50 })).map (·.getV Reg.vf) = some 0xF0 := by decide

/-- StepKeepsTheInvariant, EveryEventKeepsTheInvariant: a state with a program, a full stack and `PC` at its bound. -/
theorem witness_inv : Inv { start 0x1ABC id with pc := 0x10FE, sp := 16, stack := Vector.replicate 16 0x1000 } :=
  ⟨by decide, by decide, by decide⟩

/-- StepKeepsTheInvariant, ReachableStatesAreLegal: a step and a run of events that answer a next state. -/
theorem witness_reachable : (nextOf (step (start 0x1ABC id))).isSome = true ∧
    (nextOf (runEvents [.load [0x22, 0x00], .step 0, .tick, .step 0] State.reset)).map (fun t => (t.sp, t.stack[0], t.pc)) =
      some (2, 0x202, 0x200) := by decide

/-- DecodeOfEncodeIsTheInstruction: a well-formed instruction with every field at its greatest value, and its word. -/
theorem witness_well_formed : (Instr.drw 15 15 15).wellFormed = true ∧ encode (.drw 15 15 15) = 0xDFFF ∧
    encode (.shl 2 3) = 0x823E := by decide

/-- DrawXorsTheClippedSprite: no rows above memory (TA6), the last byte of memory (TA8), a collision, none, and a range
that does not fit (TA7). -/
theorem witness_draw :
    (runs (.drw 0 1 0) (fun s => { s with i := 0xFFFF })).map (fun t => (t.getV Reg.vf, t.chg, t.flt)) = some (0, true, .noFault) ∧
    (runs (.drw 0 1 1) (fun s => stored 0xFFF [0x81] { s with i := 0xFFF })).map
      (fun t => (pixels [(0, 0), (1, 0), (7, 0)] t, t.getV Reg.vf)) = some ([true, false, true], 0) ∧
    (runs (.drw 0 1 1) (fun s => lit [(0, 0)] { s with i := 0x50 })).map (·.getV Reg.vf) = some 1 ∧
    (runs (.drw 0 1 2) (fun s => { s with i := 0xFFF })).map (fun t => (t.flt, t.chg)) = some (.addressRange, false) := by decide

/-- DrawXorsTheClippedSprite: the two premises on VF. -/
theorem witness_sprite_bit : spriteBit { State.reset with i := 0x50 } 0 1 1 0 0 = true ∧
    spriteBit { State.reset with i := 0x50 } 0 1 1 4 0 = false ∧ (lit [(0, 0)] State.reset).fb.pixel 0 0 = true := by decide

/-- DrawingTwiceRestoresTheDisplay (S3): twice on an empty display, the second draw collides. -/
theorem witness_draw_twice :
    ((runs (.drw 0 1 1) (fun s => { s with i := 0x50 })).bind fun t => nextOf (exec (.drw 0 1 1) t)).map
      (fun w => (pixels [(0, 0), (3, 0)] w, w.getV Reg.vf)) = some ([false, false], 1) := by decide

/-- SecondDrawCollidesIffTheSpriteHasABit (log entry 27): with the display set under the whole sprite, the first draw
collides and the second, which restores the display, does not, though the sprite has bits. -/
theorem witness_second_draw :
    (runs (.drw 0 1 1) (fun s => lit [(0, 0), (1, 0), (2, 0), (3, 0)] { s with i := 0x50 })).map (·.getV Reg.vf) = some 1 ∧
    ((runs (.drw 0 1 1) (fun s => lit [(0, 0), (1, 0), (2, 0), (3, 0)] { s with i := 0x50 })).bind
      fun t => nextOf (exec (.drw 0 1 1) t)).map (fun w => (pixels [(0, 0), (3, 0)] w, w.getV Reg.vf)) =
      some ([true, true], 0) := by decide

/-- SecondDrawCollidesUnlessAllWasSetUnderTheSprite: each alternative, an all-zero sprite row and a bit on a clear pixel;
the range is the last that fits. -/
theorem witness_second_draw_agrees : (0xFFF : Word).toNat + ((1 : Height).val - 1) ≤ 0xFFF ∧
    (∀ px py : Nat, px < 64 → py < 32 → spriteBit { State.reset with i := 0xFFF } 0 1 1 px py = false) ∧
    State.reset.fb.pixel 0 0 = false ∧ spriteBit { State.reset with i := 0x50 } 0 1 1 0 0 = true := by
  refine ⟨by decide, fun px py _ _ => ?_, by decide, by decide⟩
  simp only [spriteBit, Bool.and_eq_false_iff, decide_eq_false_iff_not]
  by_cases h : py = 0
  · subst h
    exact .inr (by show BitVec.getLsbD (0 : Byte) _ = false; simp)
  · refine .inl ?_
    show ¬ (0 ≤ px ∧ px < 0 + 8 ∧ 0 ≤ py ∧ py < 0 + 1)
    omega

/-- ReturnPopsTheStack, CallPushesTheReturnAddress, CallThenReturnComesBack: at the ends of the stack. -/
theorem witness_stack :
    (runs .ret (fun s => { s with sp := 16, stack := s.stack.set 15 0xABC })).map (fun t => (t.sp, t.pc)) = some (15, 0xABC) ∧
    (runs .ret (fun s => { s with sp := 1 })).map (·.sp) = some 0 ∧ State.reset.sp.val = 0 ∧
    (runs (.call 0x300) (fun s => { s with sp := 15 })).map (fun t => (t.sp, t.stack[15])) = some (16, 0x202) ∧
    ((runs (.call 0x300) (fun s => { s with sp := 15 })).bind fun t => nextOf (exec .ret t)).map (fun u => (u.sp, u.pc)) =
      some (15, 0x202) ∧
    (runs (.call 0x300) (fun s => { s with sp := 16 })).map (·.flt) = some .stackOverflow := by decide

/-- SkipsOnImmediate, SkipsOnRegisters: equal and unequal operands, and words of classes 5 and 9 with other low digits. -/
theorem witness_skips : State.reset.getV 3 = 0x00 ∧ State.reset.getV 3 ≠ 0x01 ∧ State.reset.getV 3 = State.reset.getV 4 ∧
    (State.reset.setV 3 1).getV 3 ≠ (State.reset.setV 3 1).getV 4 ∧
    (0x5331 : Word).toNat / 4096 = 5 ∧ (0x933F : Word).toNat / 4096 = 9 ∧ (0x933F : Word).toNat % 16 ≠ 0 := by decide

/-- AddRegistersWithCarry, SubtractRegistersBothWays, ShiftsMoveVxAndIgnoreY: `x` other than VF, and both sides of each
flag. -/
theorem witness_flags : (0 : Reg) ≠ Reg.vf ∧
    (runs (.addReg 0 1) (fun s => (s.setV 0 0xFF).setV 1 0)).map (fun t => (t.getV 0, t.getV Reg.vf)) = some (0xFF, 0) ∧
    (runs (.addReg 0 1) (fun s => (s.setV 0 0xFF).setV 1 1)).map (fun t => (t.getV 0, t.getV Reg.vf)) = some (0, 1) ∧
    (runs (.subReg 0 1) (fun s => s.setV 1 1)).map (fun t => (t.getV 0, t.getV Reg.vf)) = some (0xFF, 0) ∧
    (runs (.subn 0 1) (fun s => s.setV 1 1)).map (fun t => (t.getV 0, t.getV Reg.vf)) = some (1, 1) := by decide

/-- RandomByteUnderMask: a byte the host named. -/
theorem witness_rnd : ({ State.reset with rndIn := some 0x5D } : State).rndIn = some 0x5D ∧
    (runs (.rnd 1 0xFF) (fun s => { s with rndIn := some 0x5D })).map (·.getV 1) = some 0x5D := by decide

/-- StoreDecimalDigits, StoreRegistersMovesTheIndex, LoadRegistersMovesTheIndex, StoreThenLoadRestoresTheRegisters: a memory
in canonical form that is not empty, and `I` at the last value that fits and the first that does not, for `x = 0` and
`x = F`. -/
theorem witness_ranges : Memory.wf (start 0x6005 id).mem ∧ (start 0x6005 id).mem.length = 2 ∧
    (0xFFD : Word).toNat + 2 ≤ 0xFFF ∧ 0xFFF < (0xFFE : Word).toNat + 2 ∧
    (0xFFF : Word).toNat + (0 : Reg).val ≤ 0xFFF ∧ 0xFFF < (0x1000 : Word).toNat + (0 : Reg).val ∧
    (0xFF0 : Word).toNat + (15 : Reg).val ≤ 0xFFF ∧ 0xFFF < (0xFF1 : Word).toNat + (15 : Reg).val ∧
    (1 : Reg) ≤ 15 ∧ (15 : Reg) ≤ 15 ∧ (0 : Reg) < 15 := by decide

/-- LoadRegistersMovesTheIndex, StoreRegistersMovesTheIndex at those ends (TD20, TD21). -/
theorem witness_range_ends :
    (runs (.ldRegs 15) (fun s => stored 0xFF0 [0x10, 0x11] { s with i := 0xFF0 })).map (fun t => (t.getV 1, t.i, t.flt)) =
      some (0x11, 0x1000, .noFault) ∧
    (runs (.stRegs 15) (fun s => { s with i := 0xFF1 })).map (fun t => (t.i, t.flt)) = some (0xFF1, .addressRange) := by decide

/-- StoredBytesAreFetchedNext, `Fx55`: it stores over its own second byte and the next opcode's first, at the end of
memory. -/
theorem witness_self_modify : let s := start 0xF155 fun s => { (s.setV 0 0x12).setV 1 0x34 with pc := 0xFFC, i := 0xFFD }
    Memory.wf s.mem ∧ (s.flt = .noFault ∧ s.fetch = some 0xF155 ∧ decodeWord 0xF155 = .ok (.stRegs 1)) ∧
    s.i.toNat + (1 : Reg).val ≤ 0xFFF ∧ (nextOf (step s)).bind State.fetch = some 0x3400 := by decide

/-- StoredBytesAreFetchedNext, `Fx33`: the tens and ones digit of 254 fall on the next opcode. -/
theorem witness_self_modify_digits : let s := start 0xF033 fun s => { s.setV 0 0xFE with i := 0x201 }
    Memory.wf s.mem ∧ (s.flt = .noFault ∧ s.fetch = some 0xF033 ∧ decodeWord 0xF033 = .ok (.ldB 0)) ∧
    s.i.toNat + 2 ≤ 0xFFF ∧ (nextOf (step s)).bind State.fetch = some 0x0504 := by decide

/-- SkipsOnKey: key 15, the last there is, and the value 16, the first that faults. -/
theorem witness_key : ((State.reset.setV 0 0x0F).getV 0).toNat = (15 : Key).val ∧
    15 < ((State.reset.setV 0 0x10).getV 0).toNat ∧ (pressed [15] State.reset).keyDown 15 = true := by decide

/-- WaitForKeyTakesTheHighest: no key, and two keys with the highest named. -/
theorem witness_wait : (∀ k : Key, State.reset.keyDown k = false) ∧ (pressed [2, 15] State.reset).keyDown 15 = true ∧
    ∀ j : Key, (pressed [2, 15] State.reset).keyDown j = true → j ≤ 15 := by decide

/-- TimerAccess: the sound follows `V[x]` both ways. -/
theorem witness_sound : (runs (.ldST 0) id).map (·.soundActive) = some false ∧
    (runs (.ldST 0) (·.setV 0 1)).map (·.soundActive) = some true := by decide

/-- ResetSetsEveryPiece: a state left by `reset` that is not the power-on state of the model's own field. -/
theorem witness_reset : (nextOf (apply .reset { State.reset.setV 2 0x33 with draws := 3, pc := 0xABC })).map
    (fun t => (t.getV 2, t.pc, t.draws)) = some (0, 0x200, 3) := by decide

/-- LoadCopiesTheImageOrChangesNothing: the longest image that fits, and one byte more (S5). -/
theorem witness_load : (List.replicate 3584 (0xAB : Byte)).length ≤ 3584 ∧ 3584 < (List.replicate 3585 (0xAB : Byte)).length := by
  rw [List.length_replicate, List.length_replicate]
  decide

/-- TickCountsBothTimersDown: a timer that runs and one that is 0. -/
theorem witness_tick : 0 < ({ State.reset with dt := 1 } : State).dt.toNat ∧ ({ State.reset with dt := 1 } : State).st.toNat = 0 := by
  decide

/-- KeySetAndAcknowledge: another key. -/
theorem witness_other_key : (6 : Key) ≠ 7 := by decide

end Sys2Proof.Tests
end

/-!
# The host's events on the state (spec/10_state.md)

The rules of `step`, of each event and of the reset memory come first; the obligations of the family follow from them.
-/

namespace Sys2Proof.Machine

/-! ## Frames -/

/-- Every part of a state is the same as itself. -/
theorem Part.same_refl (p : Part) (s : State) : p.same s s := by
  cases p with
  | random => exact ⟨rfl, rfl⟩
  | display => exact fun _ _ => rfl
  | regs | stack | keys | memory => exact fun _ => rfl
  | _ => exact rfl

/-! ## `key_set` and `ack_changed` (R45, R46) -/

/-- A key after `key_set`: the named one takes the value, every other stays (R45). -/
@[simp] theorem keyDown_keySetEvent (k j : Key) (b : Bool) (s : State) :
    (keySetEvent k b s).keyDown j = if j = k then b else s.keyDown j := by
  simp only [keySetEvent, State.keyDown, Fin.getElem_fin, Vector.getElem_set, Fin.val_inj, eq_comm]

theorem sameBut_keySetEvent (k : Key) (b : Bool) (s : State) : sameBut [.keys] s (keySetEvent k b s) := by
  intro p hp
  have same := Part.same_refl p s
  cases p with
  | keys => exact absurd List.mem_cons_self hp
  | _ => exact same

theorem sameBut_ackChangedEvent (s : State) : sameBut [.changed] s (ackChangedEvent s) := by
  intro p hp
  have same := Part.same_refl p s
  cases p with
  | changed => exact absurd List.mem_cons_self hp
  | _ => exact same

/-- Settles O51: the rule and the frame of each of the two events. -/
theorem keySetAndAcknowledge : Obligations.KeySetAndAcknowledge := by
  intro s
  refine ⟨fun k b => ⟨_, rfl, ?_, fun j hj => ?_, sameBut_keySetEvent k b s⟩,
    ⟨_, rfl, rfl, sameBut_ackChangedEvent s⟩⟩
  · rw [keyDown_keySetEvent, if_pos rfl]
  · rw [keyDown_keySetEvent, if_neg hj]

/-! ## `reset` (R36, R260) -/

/-- The font table in the reset content of memory (R36). -/
theorem Memory.initial_of_font {a : Nat} (h1 : 0x050 ≤ a) (h2 : a ≤ 0x09F) :
    Memory.initial a = Config.font.getD (a - 0x050) 0 :=
  if_pos ⟨h1, by simp only [Config.fontBase, Config.fontLen]; omega⟩

/-- The reset content of memory outside the font table (R36). -/
theorem Memory.initial_of_not_font {a : Nat} (h : a < 0x050 ∨ 0x09F < a) : Memory.initial a = 0 :=
  if_neg (by simp only [Config.fontBase, Config.fontLen]; omega)

/-- A memory that lists nothing reads as the reset content. -/
theorem Memory.read_nil {a : Nat} (h : a < 4096) : Memory.read [] a = some (Memory.initial a) := by
  rw [Memory.read_eq, if_pos h, Memory.byte_nil]

@[simp] theorem Frame.pixel_blank (px py : Nat) : Frame.blank.pixel px py = false := by
  unfold Frame.pixel
  split
  · simp only [Frame.blank, Vector.getElem_replicate]
  · rfl

@[simp] theorem State.getV_reset (r : Reg) : State.reset.getV r = 0 := Vector.getElem_replicate r.isLt

@[simp] theorem State.keyDown_reset (k : Key) : State.reset.keyDown k = false := Vector.getElem_replicate k.isLt

theorem State.stack_reset (j : Fin 16) : State.reset.stack[j] = 0 := Vector.getElem_replicate j.isLt

@[simp] theorem resetEvent_resetEvent (s : State) : resetEvent (resetEvent s) = resetEvent s := rfl

/-- `reset` of the power-on state is that state, so a statement about every reset state covers power-on. -/
theorem resetEvent_reset : resetEvent State.reset = State.reset := rfl

/-- Settles O47: power-on is a reset state too (`resetEvent_reset`), and each piece of a reset state is that of
`State.reset`. -/
theorem resetSetsEveryPiece : Obligations.ResetSetsEveryPiece := by
  intro s
  refine ⟨resetEvent s, rfl, congrArg Host.Outcome.next (resetEvent_resetEvent s), fun u hu => ?_⟩
  obtain ⟨s', rfl⟩ : ∃ s', u = resetEvent s' := by
    rcases hu with rfl | rfl
    · exact ⟨s, rfl⟩
    · exact ⟨State.reset, resetEvent_reset.symm⟩
  refine ⟨State.getV_reset, rfl, rfl, State.stack_reset, rfl, rfl, rfl, rfl, Frame.pixel_blank, rfl,
    State.keyDown_reset, rfl, fun a h1 h2 => ?_, fun a ha hlt => ?_⟩
  · exact (Memory.read_nil (by omega)).trans (congrArg some (Memory.initial_of_font h1 h2))
  · exact (Memory.read_nil hlt).trans (congrArg some (Memory.initial_of_not_font ha))

/-! ## Serialisation (R48) -/

theorem Event.rank_lt (e : Event) : e.rank < 6 := by
  cases e <;> simp [Event.rank]

/-- The first `n` kinds, kind by kind, are a rearrangement of the requests of those kinds. -/
theorem flatMap_filter_rank_perm (es : List Event) (n : Nat) :
    ((List.range n).flatMap fun r => es.filter fun e => e.rank == r).Perm (es.filter fun e => e.rank < n) := by
  induction n with
  | zero => simp
  | succ n ih =>
    have lower : (es.filter fun e => e.rank < n) =
        (es.filter fun e => e.rank < n + 1).filter fun e => e.rank < n := by
      rw [List.filter_filter]
      exact List.filter_congr fun e _ => by rw [Bool.eq_iff_iff]; simp; omega
    have top : (es.filter fun e => e.rank == n) =
        (es.filter fun e => e.rank < n + 1).filter fun e => !decide (e.rank < n) := by
      rw [List.filter_filter]
      exact List.filter_congr fun e _ => by rw [Bool.eq_iff_iff]; simp; omega
    rw [List.range_succ, List.flatMap_append, List.flatMap_singleton]
    refine (ih.append_right _).trans ?_
    rw [lower, top]
    exact List.filter_append_perm _ _

/-- No request is lost or added (R48). -/
theorem serialise_perm (es : List Event) : (serialise es).Perm es := by
  have all : (es.filter fun e => e.rank < 6) = es := List.filter_eq_self.mpr fun e _ => decide_eq_true e.rank_lt
  exact (flatMap_filter_rank_perm es 6).trans (.of_eq all)

/-- The kinds come in the order of R48. -/
theorem serialise_pairwise (es : List Event) : (serialise es).Pairwise fun a b => a.rank ≤ b.rank := by
  have rank_of_mem {r : Nat} {e : Event} (h : e ∈ es.filter fun e => e.rank == r) : e.rank = r :=
    eq_of_beq (List.mem_filter.mp h).2
  refine List.pairwise_flatMap.mpr ⟨fun r _ => ?_, List.pairwise_lt_range.imp fun hlt a ha b hb => ?_⟩
  · exact List.pairwise_of_forall_mem_list fun a ha b hb => by rw [rank_of_mem ha, rank_of_mem hb]
  · rw [rank_of_mem ha, rank_of_mem hb]
    exact hlt.le

/-- Settles O53: the numbers are `Event.rank`'s own; the rest is `serialise_perm` and `serialise_pairwise`. -/
theorem simultaneousRequestsAreSerialised : Obligations.SimultaneousRequestsAreSerialised :=
  ⟨⟨rfl, fun _ => rfl, fun _ _ => rfl, rfl, fun _ => rfl, rfl⟩, fun es => ⟨serialise_perm es, serialise_pairwise es⟩⟩

/-! ## The four rules of a step (spec/40_step_cycle.md R100 to R104) -/

/-- R100: a latched fault halts the engine. -/
theorem step_of_latched {s : State} (hf : s.flt ≠ .noFault) : step s = .next s := if_neg hf

/-- R101: the fetch fault. -/
theorem step_of_fetch_none {s : State} (hf : s.flt = .noFault) (hop : s.fetch = none) :
    step s = .next { s with flt := .addressRange } := by
  simp only [step, stepEvent, if_pos hf, hop, raise]

/-- R102, R103: the decoded instruction. -/
theorem step_of_executes {s : State} {i : Instr} (h : executes s i) : step s = exec i s := by
  obtain ⟨hf, op, hop, hd⟩ := h
  simp only [step, stepEvent, if_pos hf, hop, hd]

/-- R104: an unknown opcode. -/
theorem step_of_unknown {s : State} {op : Word} {e : DecodeError} (hf : s.flt = .noFault) (hop : s.fetch = some op)
    (hd : decodeWord op = .error e) : step s = .next s.advance := by
  simp only [step, stepEvent, if_pos hf, hop, hd, execUnknown]

/-! ## The random byte of `step(rnd)` (R43) -/

/-- The state with another random input. -/
def State.withRnd (s : State) (q : Option Byte) : State := { s with rndIn := q }

/-- A result with another random input in its next state. -/
def resultWithRnd (q : Option Byte) : Result → Result
  | .next t => .next (t.withRnd q)
  | .fault r => .fault r
  | .refused r => .refused r

@[simp] theorem State.withRnd_self (s : State) : s.withRnd s.rndIn = s := rfl

@[simp] theorem resultWithRnd_resultWithRnd (q q' : Option Byte) (a : Result) :
    resultWithRnd q (resultWithRnd q' a) = resultWithRnd q a := by
  cases a <;> rfl

/-- `step(rnd)` is the step with `rnd` as the random input, which is then as before. -/
theorem stepWith_eq (r : Byte) (s : State) : stepWith r s = resultWithRnd s.rndIn (step (s.withRnd (some r))) := by
  unfold stepWith State.withRnd
  cases step { s with rndIn := some r } <;> rfl

theorem State.pop_withRnd (s : State) (q : Option Byte) :
    (s.withRnd q).pop = s.pop.map fun p => (p.1, p.2.withRnd q) := by
  unfold State.pop State.withRnd
  split <;> rfl

theorem State.push_withRnd (s : State) (q : Option Byte) (w : Word) :
    (s.withRnd q).push w = (s.push w).map fun t => t.withRnd q := by
  unfold State.push State.withRnd
  split <;> rfl

theorem State.storeAtI_withRnd (s : State) (q : Option Byte) (bs : List Byte) :
    (s.withRnd q).storeAtI bs = (s.storeAtI bs).map fun t => t.withRnd q := by
  simp only [State.storeAtI, State.withRnd, Option.map_map, Function.comp_def]

@[simp] theorem State.pcn_withRnd (s : State) (q : Option Byte) : (s.withRnd q).pcn = s.pcn := rfl
@[simp] theorem State.getV_withRnd (s : State) (q : Option Byte) (x : Reg) : (s.withRnd q).getV x = s.getV x := rfl
@[simp] theorem State.regsUpTo_withRnd (s : State) (q : Option Byte) (x : Reg) :
    (s.withRnd q).regsUpTo x = s.regsUpTo x := rfl
@[simp] theorem State.loadAtI_withRnd (s : State) (q : Option Byte) (n : Nat) :
    (s.withRnd q).loadAtI n = s.loadAtI n := rfl
@[simp] theorem State.scanKeys_withRnd (s : State) (q : Option Byte) : (s.withRnd q).scanKeys = s.scanKeys := rfl

/-- No instruction but `Cxnn` depends on the random input or changes it: one that can fault, or that reads the keys, by
the operation it branches on, any other outright. -/
theorem exec_withRnd {i : Instr} (hi : ∀ x nn, i ≠ .rnd x nn) (s : State) (q : Option Byte) :
    exec i (s.withRnd q) = resultWithRnd q (exec i s) := by
  cases i with
  | rnd x nn => exact absurd rfl (hi x nn)
  | ret =>
    simp only [exec, execRet, State.pop_withRnd]
    cases s.pop <;> rfl
  | call nnn =>
    simp only [exec, execCall, State.push_withRnd, State.pcn_withRnd]
    cases s.push s.pcn <;> rfl
  | drw x y n =>
    simp only [exec, execDrw, State.loadAtI_withRnd]
    cases s.loadAtI n.val <;> rfl
  | skp x =>
    simp only [exec, execSkp, State.getV_withRnd]
    cases keyOf (s.getV x) <;> rfl
  | sknp x =>
    simp only [exec, execSknp, State.getV_withRnd]
    cases keyOf (s.getV x) <;> rfl
  | ldVxK x =>
    simp only [exec, execLdVxK, State.scanKeys_withRnd]
    cases s.scanKeys <;> rfl
  | ldB x =>
    simp only [exec, execLdB, State.getV_withRnd, State.storeAtI_withRnd]
    cases s.storeAtI (bcdDigits (s.getV x)) <;> rfl
  | stRegs x =>
    simp only [exec, execStRegs, State.regsUpTo_withRnd, State.storeAtI_withRnd]
    cases s.storeAtI (s.regsUpTo x) <;> rfl
  | ldRegs x =>
    simp only [exec, execLdRegs, State.loadAtI_withRnd]
    cases s.loadAtI (x.val + 1) <;> rfl
  | _ => rfl

/-- A step that runs no `Cxnn` does not depend on the random input and does not change it. -/
theorem step_withRnd {s : State} (h : ∀ x nn, ¬ executes s (.rnd x nn)) (q : Option Byte) :
    step (s.withRnd q) = resultWithRnd q (step s) := by
  rcases step_cases s with ⟨hf, he⟩ | ⟨hf, hop, he⟩ | ⟨op, i, hf, hop, hd, he⟩ | ⟨op, hf, hop, hd, he⟩ <;> rw [he]
  · exact step_of_latched (s := s.withRnd q) hf
  · exact step_of_fetch_none (s := s.withRnd q) hf hop
  · rw [step_of_executes (s := s.withRnd q) (i := i) ⟨hf, op, hop, hd⟩]
    exact exec_withRnd (fun x nn hi => h x nn (hi ▸ ⟨hf, op, hop, hd⟩)) s q
  · exact step_of_unknown (s := s.withRnd q) hf hop hd

/-- `step(rnd)` is `step` where the step runs no `Cxnn`. -/
theorem stepWith_eq_step {s : State} (h : ∀ x nn, ¬ executes s (.rnd x nn)) (r : Byte) : stepWith r s = step s :=
  calc stepWith r s = resultWithRnd s.rndIn (step (s.withRnd (some r))) := stepWith_eq r s
    _ = resultWithRnd s.rndIn (step s) := by rw [step_withRnd h, resultWithRnd_resultWithRnd]
    _ = step (s.withRnd s.rndIn) := (step_withRnd h s.rndIn).symm
    _ = step s := by rw [State.withRnd_self]

/-- `Cxnn` under `step(rnd)` leaves `rnd AND nn` in its register (R43, R170). -/
theorem stepWith_of_rnd {s : State} {x : Reg} {nn : Byte} (h : executes s (.rnd x nn)) (r : Byte) :
    ∃ t, stepWith r s = .next t ∧ t.getV x = r &&& nn := by
  have hstep : step (s.withRnd (some r)) = execRnd x nn (s.withRnd (some r)) :=
    step_of_executes (s := s.withRnd (some r)) h
  refine ⟨_, by rw [stepWith_eq, hstep]; rfl, ?_⟩
  rw [State.getV_withRnd, State.getV_writeReg, if_pos rfl]
  rfl

/-- Settles O52: `Cxnn` takes the byte, every other step commutes with a change of the random input, and a latched step is
one of those. -/
theorem stepEventSuppliesTheRandomByte : Obligations.StepEventSuppliesTheRandomByte := by
  intro s r
  refine ⟨fun x nn h => stepWith_of_rnd h r, fun h => stepWith_eq_step h r, fun hf => ?_⟩
  have idle : ∀ x nn, ¬ executes s (.rnd x nn) := fun _ _ h => hf h.1
  exact (stepWith_eq_step idle r).trans (step_of_latched hf)

end Sys2Proof.Machine

/-!
# Decoding against the opcode table (spec/30_encoding.md)

One theorem for each direction between the class map (R84, R85) and the table (R86): a word that decodes is the encoding
of its instruction, and a word that matches an instruction's row decodes to an instruction of that row.
-/

namespace Sys2Proof

/-! ## A word is made of its fields (R11, R81) -/

/-- Format `NNN`. -/
theorem packNNN_of_cls {op : Word} {c : Nat} (hc : (fieldCls op).toNat = c) :
    packNNN (BitVec.ofNat 4 c) (fieldNNN op) = op := by
  rw [← hc, BitVec.ofNat_toNat, BitVec.setWidth_eq]
  apply BitVec.eq_of_toNat_eq
  rw [packNNN_toNat, fieldCls_toNat, fieldNNN_toNat]
  omega

/-- Format `XNN`. -/
theorem packXNN_of_cls {op : Word} {c : Nat} (hc : (fieldCls op).toNat = c) :
    packXNN (BitVec.ofNat 4 c) (fieldX op) (fieldNN op) = op := by
  rw [← hc, BitVec.ofNat_toNat, BitVec.setWidth_eq]
  apply BitVec.eq_of_toNat_eq
  rw [packXNN_toNat, fieldCls_toNat, fieldX_val, fieldNN_toNat]
  omega

/-- Format `X`: the low byte is a fixed sub-function. -/
theorem packXNN_of_cls_low {op : Word} {c k : Nat} (hc : (fieldCls op).toNat = c) (hk : (fieldNN op).toNat = k) :
    packXNN (BitVec.ofNat 4 c) (fieldX op) (BitVec.ofNat 8 k) = op := by
  rw [← hk, BitVec.ofNat_toNat, BitVec.setWidth_eq]
  exact packXNN_of_cls hc

/-- Format `XYN`. -/
theorem packXYN_of_cls {op : Word} {c : Nat} (hc : (fieldCls op).toNat = c) :
    packXYN (BitVec.ofNat 4 c) (fieldX op) (fieldY op) (op.extractLsb' 0 4) = op := by
  rw [← hc, BitVec.ofNat_toNat, BitVec.setWidth_eq]
  apply BitVec.eq_of_toNat_eq
  rw [packXYN_toNat, fieldCls_toNat, fieldX_val, fieldY_val, lowNibble_toNat]
  omega

/-- Format `XY`: the low nibble is a fixed sub-function. -/
theorem packXYN_of_cls_low {op : Word} {c k : Nat} (hc : (fieldCls op).toNat = c)
    (hk : (op.extractLsb' 0 4).toNat = k) :
    packXYN (BitVec.ofNat 4 c) (fieldX op) (fieldY op) (BitVec.ofNat 4 k) = op := by
  rw [← hk, BitVec.ofNat_toNat, BitVec.setWidth_eq]
  exact packXYN_of_cls hc

/-! ## A word that decodes is the encoding of its instruction -/

theorem encode_of_decodeFixed {op : Word} {i : Instr} (h : decodeFixed op = some i) : encode i = op := by
  unfold decodeFixed at h
  split at h <;> cases h <;> exact BitVec.eq_of_toNat_eq (Eq.symm ‹_›)

theorem encode_of_decodeAlu {op : Word} {i : Instr} (hc : (fieldCls op).toNat = 0x8) (h : decodeAlu op = some i) :
    encode i = op := by
  unfold decodeAlu at h
  split at h <;> cases h <;> exact packXYN_of_cls_low hc ‹_›

theorem encode_of_decodeKeys {op : Word} {i : Instr} (hc : (fieldCls op).toNat = 0xE) (h : decodeKeys op = some i) :
    encode i = op := by
  unfold decodeKeys at h
  split at h <;> cases h <;> exact packXNN_of_cls_low hc ‹_›

theorem encode_of_decodeMisc {op : Word} {i : Instr} (hc : (fieldCls op).toNat = 0xF) (h : decodeMisc op = some i) :
    encode i = op := by
  unfold decodeMisc at h
  split at h <;> cases h <;> exact packXNN_of_cls_low hc ‹_›

/-- The low nibble that classes 0x5 and 0x9 require, and the one instruction they then give. -/
theorem decodeIfLowZero_eq_some {op : Word} {i j : Instr} (h : decodeIfLowZero op j = some i) :
    (op.extractLsb' 0 4).toNat = 0 ∧ j = i := by
  unfold decodeIfLowZero at h
  split at h
  · next low => exact ⟨congrArg BitVec.toNat low, Option.some.inj h⟩
  · cases h

/-- The class map keeps every bit of the word, class by class. -/
theorem encode_of_decodeOption {op : Word} {i : Instr} (h : decodeOption op = some i) : encode i = op := by
  unfold decodeOption at h
  split at h
  · exact encode_of_decodeFixed h
  · next hc => cases h; exact packNNN_of_cls hc
  · next hc => cases h; exact packNNN_of_cls hc
  · next hc => cases h; exact packXNN_of_cls hc
  · next hc => cases h; exact packXNN_of_cls hc
  · next hc => obtain ⟨low, rfl⟩ := decodeIfLowZero_eq_some h; exact packXYN_of_cls_low hc low
  · next hc => cases h; exact packXNN_of_cls hc
  · next hc => cases h; exact packXNN_of_cls hc
  · next hc => exact encode_of_decodeAlu hc h
  · next hc => obtain ⟨low, rfl⟩ := decodeIfLowZero_eq_some h; exact packXYN_of_cls_low hc low
  · next hc => cases h; exact packNNN_of_cls hc
  · next hc => cases h; exact packNNN_of_cls hc
  · next hc => cases h; exact packXNN_of_cls hc
  · next hc => cases h; exact packXYN_of_cls hc
  · next hc => exact encode_of_decodeKeys hc h
  · have := (fieldCls op).isLt
    have hc : (fieldCls op).toNat = 0xF := by grind
    exact encode_of_decodeMisc hc h

/-! ## The row of an instruction (R86) -/

/-- `Laws.FixedBits` has the statement for each constructor; this is the one for any instruction. -/
theorem fixedBits_statement : ∀ i : Instr, Laws.FixedBits.Statement i
  | .cls => Laws.FixedBits.cls
  | .ret => Laws.FixedBits.ret
  | .jp nnn => Laws.FixedBits.jp nnn
  | .call nnn => Laws.FixedBits.call nnn
  | .seImm x nn => Laws.FixedBits.seImm x nn
  | .sneImm x nn => Laws.FixedBits.sneImm x nn
  | .seReg x y => Laws.FixedBits.seReg x y
  | .ldImm x nn => Laws.FixedBits.ldImm x nn
  | .addImm x nn => Laws.FixedBits.addImm x nn
  | .ldReg x y => Laws.FixedBits.ldReg x y
  | .orReg x y => Laws.FixedBits.orReg x y
  | .andReg x y => Laws.FixedBits.andReg x y
  | .xorReg x y => Laws.FixedBits.xorReg x y
  | .addReg x y => Laws.FixedBits.addReg x y
  | .subReg x y => Laws.FixedBits.subReg x y
  | .shr x y => Laws.FixedBits.shr x y
  | .subn x y => Laws.FixedBits.subn x y
  | .shl x y => Laws.FixedBits.shl x y
  | .sneReg x y => Laws.FixedBits.sneReg x y
  | .ldI nnn => Laws.FixedBits.ldI nnn
  | .jpV0 nnn => Laws.FixedBits.jpV0 nnn
  | .rnd x nn => Laws.FixedBits.rnd x nn
  | .drw x y n => Laws.FixedBits.drw x y n
  | .skp x => Laws.FixedBits.skp x
  | .sknp x => Laws.FixedBits.sknp x
  | .ldVxDT x => Laws.FixedBits.ldVxDT x
  | .ldVxK x => Laws.FixedBits.ldVxK x
  | .ldDT x => Laws.FixedBits.ldDT x
  | .ldST x => Laws.FixedBits.ldST x
  | .addI x => Laws.FixedBits.addI x
  | .ldF x => Laws.FixedBits.ldF x
  | .ldB x => Laws.FixedBits.ldB x
  | .stRegs x => Laws.FixedBits.stRegs x
  | .ldRegs x => Laws.FixedBits.ldRegs x

theorem rowOf_matches_encode (i : Instr) : (rowOf i).matches (encode i) = true := (fixedBits_statement i).1

/-- No constructor is missing from the table's order. -/
theorem rowOf_mem_opcodeTable (i : Instr) : rowOf i ∈ opcodeTable := by
  cases i <;> simp [opcodeTable, tableOrder, rowOf]

/-! ## A word that matches a row decodes to an instruction of that row -/

/-- A field whose bits are all under a row's mask is the row's own in every word the row matches. -/
theorem field_of_matches {r : OpcodeRow} {op : Word} {start len : Nat} (h : r.matches op = true)
    (hm : r.mask.extractLsb' start len = BitVec.allOnes len) :
    op.extractLsb' start len = r.val.extractLsb' start len := by
  have hval : op &&& r.mask = r.val := eq_of_beq h
  rw [← hval, BitVec.extractLsb'_and, hm, BitVec.and_allOnes]

/-- Every mask holds the class (R87). -/
theorem mask_rowOf_cls (i : Instr) : (rowOf i).mask.extractLsb' 12 4 = BitVec.allOnes 4 := by
  cases i <;> dsimp only [rowOf] <;> rfl

/-- The class map gives what the row's fixed bits say: for each shape of mask (R81), the class and then the fixed field
that the map reads next. -/
theorem rowOf_decodeOption_of_matches {op : Word} {i : Instr} (h : (rowOf i).matches op = true) :
    (decodeOption op).map rowOf = some (rowOf i) := by
  have hcls : fieldCls op = fieldCls (rowOf i).val := field_of_matches h (mask_rowOf_cls i)
  cases i <;> dsimp only [rowOf] at h hcls
  case cls | ret =>
    have whole : op &&& BitVec.allOnes 16 = _ := eq_of_beq h
    rw [BitVec.and_allOnes] at whole
    subst whole
    rfl
  case seReg | sneReg =>
    have low : op.extractLsb' 0 4 = _ := field_of_matches h rfl
    simp only [decodeOption, decodeIfLowZero, hcls, low]
    rfl
  case ldReg | orReg | andReg | xorReg | addReg | subReg | shr | subn | shl =>
    have low : op.extractLsb' 0 4 = _ := field_of_matches h rfl
    simp only [decodeOption, decodeAlu, hcls, low]
    rfl
  case skp | sknp =>
    have low : fieldNN op = _ := field_of_matches h rfl
    simp only [decodeOption, decodeKeys, hcls, low]
    rfl
  case ldVxDT | ldVxK | ldDT | ldST | addI | ldF | ldB | stRegs | ldRegs =>
    have low : fieldNN op = _ := field_of_matches h rfl
    simp only [decodeOption, decodeMisc, hcls, low]
    rfl
  case jp | call | seImm | sneImm | ldImm | addImm | ldI | jpV0 | rnd | drw =>
    simp only [decodeOption, hcls]
    rfl

/-- The class map gives the row a word matches, whichever of the table's rows that is (R83). -/
theorem map_rowOf_decodeOption_eq {op : Word} {r : OpcodeRow} (hr : r ∈ opcodeTable) (h : r.matches op = true) :
    (decodeOption op).map rowOf = some r := by
  obtain ⟨i, -, rfl⟩ := List.mem_map.mp hr
  exact rowOf_decodeOption_of_matches h

theorem rowOf_matches_of_decodeOption {op : Word} {i : Instr} (h : decodeOption op = some i) :
    (rowOf i).matches op = true := by
  rw [← encode_of_decodeOption h]
  exact rowOf_matches_encode i

/-- Settles O19: the row a word matches is the row of what it decodes to, so there is at most one, and a word that
decodes matches the row of its instruction, so a word without a row does not decode. -/
theorem decodeFollowsTheOpcodeTable : Obligations.DecodeFollowsTheOpcodeTable := by
  intro op
  refine ⟨fun r hr hm => ?_, fun i hd => ?_, fun none_matches => ?_⟩
  · obtain ⟨i, hi, hrow⟩ := Option.map_eq_some_iff.mp (map_rowOf_decodeOption_eq hr hm)
    exact ⟨i, (decodeWord_ok_iff op i).mpr hi, hrow⟩
  · rw [decodeWord_ok_iff] at hd
    refine ⟨encode_of_decodeOption hd, rowOf_mem_opcodeTable i, rowOf_matches_of_decodeOption hd, fun r hr hm => ?_⟩
    have hrow := map_rowOf_decodeOption_eq hr hm
    rw [hd] at hrow
    exact (Option.some.inj hrow).symm
  · refine (decodeWord_error_iff op _).mpr ⟨Option.eq_none_iff_forall_ne_some.mpr fun i hd => ?_, rfl⟩
    have no_match := none_matches (rowOf i) (rowOf_mem_opcodeTable i)
    rw [rowOf_matches_of_decodeOption hd] at no_match
    cases no_match

end Sys2Proof

/-!
# The step cycle (spec/40_step_cycle.md)

What each of R100, R101, R104 and R105 says of a step, each from the rule of a step it rests on.
-/

namespace Sys2Proof.Machine

/-! ## The latched fault (R100) -/

/-- `step(rnd)` with a fault latched. -/
theorem stepWith_of_latched {s : State} (hf : s.flt ≠ .noFault) (r : Byte) : stepWith r s = .next s :=
  (stepWith_eq_step (fun _ _ h => hf h.1) r).trans (step_of_latched hf)

/-- A too long image changes nothing (R263). -/
theorem loadEvent_of_imageTooLarge {img : List Byte} (h : loadReport img = .imageTooLarge) (s : State) :
    loadEvent img s = s := by
  simp only [loadEvent, h]

/-- Only `reset` and a successful `load` change the latch of a faulted state (R229). -/
theorem apply_flt_of_latched {e : Event} {s t : State} (hf : s.flt ≠ .noFault) (he : apply e s = .next t) :
    t.flt = s.flt ∨ e = .reset ∨ ∃ img, e = .load img ∧ loadReport img = .success := by
  cases e with
  | reset => exact .inr (.inl rfl)
  | load img =>
    cases hr : loadReport img with
    | success => exact .inr (.inr ⟨img, rfl, hr⟩)
    | imageTooLarge =>
      cases he
      rw [loadEvent_of_imageTooLarge hr]
      exact .inl rfl
  | step r =>
    cases (stepWith_of_latched hf r).symm.trans he
    exact .inl rfl
  | keySet | ackChanged | tick =>
    cases he
    exact .inl rfl

/-- Settles O3: the gate of a step, with the host's byte or without, and the events that keep the latch. -/
theorem latchedFaultHaltsTheEngine : Obligations.LatchedFaultHaltsTheEngine := by
  intro s hf
  refine ⟨step_of_latched hf, stepWith_of_latched hf, fun e t he ht => ?_⟩
  exact (apply_flt_of_latched hf he).resolve_left fun same => hf (same ▸ ht)

/-! ## Fetch (R101) -/

/-- `pcn` as a number, away from the top of the 16-bit range (R12). -/
theorem State.pcn_toNat {s : State} (h : s.pc.toNat < 0xFFFE) : s.pcn.toNat = s.pc.toNat + 2 := by
  rw [State.pcn_eq, BitVec.toNat_add]
  exact Nat.mod_eq_of_lt (Nat.add_lt_add_right h 2)

theorem State.fetch_eq_none {s : State} (h : 0xFFE < s.pc.toNat) : s.fetch = none := by
  rcases State.fetch_cases s with ⟨hle, -⟩ | ⟨-, hop⟩
  · omega
  · exact hop

theorem State.fetch_eq_some {s : State} (h : s.pc.toNat ≤ 0xFFE) :
    s.fetch = some (wordOfBytes (Memory.byte s.mem s.pc.toNat) (Memory.byte s.mem (s.pc.toNat + 1))) := by
  rcases State.fetch_cases s with ⟨-, hop⟩ | ⟨hlt, -⟩
  · exact hop
  · omega

theorem State.pc_le_of_fetch {s : State} {op : Word} (hop : s.fetch = some op) : s.pc.toNat ≤ 0xFFE := by
  by_contra hlt
  rw [State.fetch_eq_none (Nat.lt_of_not_le hlt)] at hop
  cases hop

/-- Settles O4: the two outcomes of a fetch, and the word's value from its two bytes. -/
theorem fetchReadsBigEndianOrFaults : Obligations.FetchReadsBigEndianOrFaults := by
  intro s hf
  refine ⟨fun hlt => step_of_fetch_none hf (State.fetch_eq_none hlt), fun hle => ?_⟩
  have hop := State.fetch_eq_some hle
  refine ⟨_, hop, ?_, State.pcn_toNat (by omega), fun i hd => step_of_executes ⟨hf, _, hop, hd⟩⟩
  rw [wordOfBytes_toNat, Nat.mul_comm]

/-! ## The unknown opcode (R104) -/

theorem Part.same_trans {p : Part} {s t u : State} (h : p.same s t) (h' : p.same t u) : p.same s u := by
  cases p with
  | random => exact ⟨h'.1.trans h.1, h'.2.trans h.2⟩
  | display => exact fun px py => (h' px py).trans (h px py)
  | regs | stack | keys | memory => exact fun a => (h' a).trans (h a)
  | _ => exact Eq.trans h' h

theorem sameBut_trans {ps : List Part} {s t u : State} (h : sameBut ps s t) (h' : sameBut ps t u) : sameBut ps s u :=
  fun p hp => Part.same_trans (h p hp) (h' p hp)

theorem sameBut_mono {ps qs : List Part} {s t : State} (hsub : ps ⊆ qs) (h : sameBut ps s t) : sameBut qs s t :=
  fun p hp => h p fun hmem => hp (hsub hmem)

/-- Taking a fault changes `FLT` alone (R222). -/
theorem sameBut_fault (s : State) (c : Cause) : sameBut [.fault] s { s with flt := c } := by
  intro p hp
  have same := Part.same_refl p s
  cases p with
  | fault => exact absurd List.mem_cons_self hp
  | _ => exact same

/-- `step(rnd)` with an unknown opcode: the byte is not used. -/
theorem stepWith_of_unknown {s : State} {op : Word} {e : DecodeError} (hf : s.flt = .noFault)
    (hop : s.fetch = some op) (hd : decodeWord op = .error e) (r : Byte) : stepWith r s = .next s.advance := by
  refine (stepWith_eq_step ?_ r).trans (step_of_unknown hf hop hd)
  rintro x nn ⟨-, op', hop', hd'⟩
  cases hop.symm.trans hop'
  cases hd.symm.trans hd'

/-- `step(rnd)` with the fetch fault: the byte is not used. -/
theorem stepWith_of_fetch_none {s : State} (hf : s.flt = .noFault) (hop : s.fetch = none) (r : Byte) :
    stepWith r s = .next { s with flt := .addressRange } := by
  refine (stepWith_eq_step ?_ r).trans (step_of_fetch_none hf hop)
  rintro x nn ⟨-, op', hop', -⟩
  cases hop.symm.trans hop'

theorem Memory.byte_of_read {m : Memory} {a : Nat} {b : Byte} (h : Memory.read m a = some b) : Memory.byte m a = b := by
  rw [Memory.read_eq] at h
  split at h
  · exact Option.some.inj h
  · cases h

/-- The zero word, as the fetch builds it, is an unknown opcode. -/
theorem decodeWord_zero : decodeWord (wordOfBytes 0 0) = .error (.unknownOpcode (wordOfBytes 0 0)) := by decide

/-- The walk through zero bytes, by induction on its length: at 0xFFF or 0x1000 the fetch faults, and below that the
step is the no-operation and the walk goes on from `pcn`. -/
theorem runEvents_zeros (n : Nat) (s : State) (rs : List Byte) (hf : s.flt = .noFault) (hpc : s.pc.toNat ≤ 0x1000)
    (hzero : ∀ a, s.pc.toNat ≤ a → a ≤ 0xFFF → Memory.read s.mem a = some 0)
    (hn : n = (0x1000 - s.pc.toNat) / 2) (hlen : rs.length = n + 1) :
    ∃ t, runEvents (rs.map .step) s = .next t ∧ t.flt = .addressRange ∧ t.pc.toNat = s.pc.toNat + 2 * n ∧
      sameBut [.counter, .fault] s t := by
  induction n generalizing s rs with
  | zero =>
    obtain ⟨r, rfl⟩ := List.length_eq_one_iff.mp hlen
    have hstep := stepWith_of_fetch_none hf (State.fetch_eq_none (by omega)) r
    refine ⟨{ s with flt := .addressRange }, ?_, rfl, rfl, sameBut_mono (by simp) (sameBut_fault s _)⟩
    simp only [List.map, runEvents, apply, hstep]
  | succ n ih =>
    obtain ⟨r, rs, rfl⟩ := List.exists_cons_of_length_eq_add_one hlen
    have hpcn : s.advance.pc.toNat = s.pc.toNat + 2 := State.pcn_toNat (by omega)
    have hop := State.fetch_eq_some (s := s) (by omega)
    rw [Memory.byte_of_read (hzero _ le_rfl (by omega)), Memory.byte_of_read (hzero _ (by omega) (by omega))] at hop
    have hstep := stepWith_of_unknown hf hop decodeWord_zero r
    obtain ⟨t, hrun, hflt, hend, hframe⟩ :=
      ih s.advance rs hf (by omega) (fun a ha => hzero a (by omega)) (by omega) (Nat.succ.inj hlen)
    refine ⟨t, ?_, hflt, by omega, sameBut_trans (sameBut_mono (by simp) (sameBut_advance s)) hframe⟩
    rw [List.map_cons, runEvents, apply, hstep]
    exact hrun

/-- Settles O2: a word without a row does not decode (O19), so its step is the no-operation; the walk is
`runEvents_zeros`. -/
theorem unknownOpcodeOnlyAdvancesThePc : Obligations.UnknownOpcodeOnlyAdvancesThePc := by
  refine ⟨fun s op hf hop hno => ?_, by decide, fun s rs hf hpc hzero hlen => ?_⟩
  · obtain ⟨-, -, hunknown⟩ := decodeFollowsTheOpcodeTable op
    have hpc := State.pc_le_of_fetch hop
    exact ⟨s.advance, step_of_unknown hf hop (hunknown hno), State.pcn_toNat (by omega), sameBut_advance s⟩
  · exact runEvents_zeros _ s rs hf hpc hzero rfl hlen

/-! ## The program counter (R105) -/

/-- An instruction takes a fault and does nothing else, or leaves the latch as it is (R222). -/
theorem exec_fault_or_flt {i : Instr} {s t : State} (h : exec i s = .next t) :
    (∃ c, c ≠ .noFault ∧ t = { s with flt := c }) ∨ t.flt = s.flt := by
  rcases exec_cases i s t h with ⟨c, hc, ht, -⟩ | shape
  · exact .inl ⟨c, hc, ht⟩
  · refine .inr ?_
    cases i with
    | ret =>
      obtain ⟨w, u, -, ht⟩ := shape
      exact (congrArg State.flt ht).trans rfl
    | call nnn =>
      obtain ⟨u, -, ht⟩ := shape
      exact (congrArg State.flt ht).trans rfl
    | ldVxK x => exact shape.elim (congrArg State.flt) fun ht => (congrArg State.flt ht).trans rfl
    | _ => exact (congrArg State.flt shape).trans rfl

theorem zextNNN_toNat (nnn : Imm12) : (zextNNN nnn).toNat = nnn.toNat := by
  have := nnn.isLt
  simp only [zextNNN, BitVec.toNat_setWidth]
  omega

theorem zextByte_toNat (b : Byte) : (zextByte b).toNat = b.toNat := by
  have := b.isLt
  simp only [zextByte, BitVec.toNat_setWidth]
  omega

/-- The sum of `Bnnn` does not wrap (R138). -/
theorem zextNNN_add_zextByte_toNat (nnn : Imm12) (b : Byte) :
    (zextNNN nnn + zextByte b).toNat = nnn.toNat + b.toNat := by
  have := nnn.isLt
  have := b.isLt
  rw [BitVec.toNat_add, zextNNN_toNat, zextByte_toNat]
  omega

/-- The two values a conditional skip gives `PC`, by the condition it tests (R130). -/
theorem skipIf_pc_cases (s : State) {c : Bool} {P : Prop} (h : c = true ↔ P) :
    P ∧ (s.skipIf c).pc = s.pcn + 2 ∨ ¬ P ∧ (s.skipIf c).pc = s.pcn := by
  cases c with
  | true => exact .inl ⟨h.mp rfl, rfl⟩
  | false => exact .inr ⟨fun hp => Bool.false_ne_true (h.mpr hp), rfl⟩

/-- The key a register names is the only one of its number. -/
theorem keyDown_eq_iff {s : State} {x : Reg} {k : Key} (hk : k.val = (s.getV x).toNat) (b : Bool) :
    s.keyDown k = b ↔ ∃ j : Key, j.val = (s.getV x).toNat ∧ s.keyDown j = b := by
  refine ⟨fun h => ⟨k, hk, h⟩, ?_⟩
  rintro ⟨j, hj, h⟩
  rwa [Fin.ext (hk.trans hj.symm)]

/-- A non-faulting instruction leaves in `PC` a value the sequencer table gives (R105): the transfers and the skips by
their own rules, every other instruction by `exec_cases`. -/
theorem exec_sequencer {i : Instr} {s t : State} (h : exec i s = .next t) (ht : t.flt = .noFault) :
    sequencer i s t.pc := by
  rcases exec_cases i s t h with ⟨c, hc, rfl, -⟩ | shape
  · exact absurd ht hc
  cases i with
  | jp nnn => cases h; exact zextNNN_toNat nnn
  | jpV0 nnn => cases h; exact zextNNN_add_zextByte_toNat nnn (s.getV 0)
  | call nnn =>
    obtain ⟨u, -, hu⟩ := shape
    exact (congrArg (fun t => t.pc.toNat) hu).trans (zextNNN_toNat nnn)
  | ret =>
    obtain ⟨w, u, hpop, hu⟩ := shape
    rcases State.pop_cases s with ⟨w', u', hpop', ⟨j, hj, hw⟩, -, -⟩ | ⟨hnone, -⟩
    · cases hpop.symm.trans hpop'
      exact ⟨j, hj, (congrArg State.pc hu).trans hw⟩
    · cases hpop.symm.trans hnone
  | seImm x nn => cases h; exact skipIf_pc_cases s beq_iff_eq
  | sneImm x nn => cases h; exact skipIf_pc_cases s bne_iff_ne
  | seReg x y => cases h; exact skipIf_pc_cases s beq_iff_eq
  | sneReg x y => cases h; exact skipIf_pc_cases s bne_iff_ne
  | skp x =>
    simp only [exec, execSkp] at h
    rcases keyOf_cases (s.getV x) with ⟨k, he, hk⟩ | ⟨he, -⟩ <;> rw [he] at h <;> cases h
    · exact skipIf_pc_cases s (keyDown_eq_iff hk true)
    · cases ht
  | sknp x =>
    simp only [exec, execSknp] at h
    rcases keyOf_cases (s.getV x) with ⟨k, he, hk⟩ | ⟨he, -⟩ <;> rw [he] at h <;> cases h
    · exact skipIf_pc_cases s ((Bool.not_eq_true' _).to_iff.trans (keyDown_eq_iff hk false))
    · cases ht
  | ldVxK x =>
    simp only [exec, execLdVxK] at h
    rcases State.scanKeys_cases s with ⟨k, he, hk, -⟩ | ⟨he, hno⟩ <;> rw [he] at h <;> cases h
    · exact .inr ⟨⟨k, hk⟩, rfl⟩
    · exact .inl ⟨hno, rfl⟩
  | _ => exact .inr ⟨id, congrArg State.pc shape⟩

/-- Settles O6: one outcome of a step at a time; where an instruction ran, it faulted (`exec_fault_or_flt`) or followed
the table (`exec_sequencer`). -/
theorem nextPcFollowsTheSequencerTable : Obligations.NextPcFollowsTheSequencerTable := by
  intro s t ht
  rcases step_cases s with ⟨hf, he⟩ | ⟨hf, -, he⟩ | ⟨op, i, hf, hop, hd, he⟩ | ⟨op, hf, hop, hd, he⟩ <;> rw [he] at ht
  · cases ht
    exact ⟨fun _ => rfl, fun _ _ => rfl, fun h => absurd h hf⟩
  · cases ht
    exact ⟨fun _ => rfl, fun _ _ => rfl, fun _ h => by cases h⟩
  · refine ⟨fun h => absurd hf h, fun _ hflt => ?_, fun _ hflt => .inr ⟨i, ⟨hf, op, hop, hd⟩, exec_sequencer ht hflt⟩⟩
    rcases exec_fault_or_flt ht with ⟨c, -, rfl⟩ | same
    · rfl
    · exact absurd (same.trans hf) hflt
  · cases ht
    exact ⟨fun h => absurd hf h, fun _ h => absurd hf h, fun _ _ => .inl ⟨op, hop, hd, rfl⟩⟩

end Sys2Proof.Machine

/-!
# The display (spec/41_display.md)

What `00E0` and `Dxyn` leave, each said once as an equation of `exec`. The pixels and the collision of a draw come from
`Canvas.drawRows_flips`, with the sprite rows read from memory.
-/

namespace Sys2Proof.Machine

/-! ## Frames -/

/-- An update of the display and of `CHG`. -/
theorem sameBut_display (s : State) (f : Frame) (c : Bool) :
    sameBut [.display, .changed] s { s with fb := f, chg := c } := by
  intro p hp
  have same := Part.same_refl p s
  cases p with
  | display | changed => exact absurd hp (by decide)
  | _ => exact same

theorem sameBut_setFlag (s : State) (f : Bool) : sameBut [.regs] s (s.setFlag f) := by
  intro p hp
  have same := Part.same_refl p s
  cases p with
  | regs => exact absurd List.mem_cons_self hp
  | _ => exact same

theorem regsBut_setFlag (s : State) (f : Bool) : regsBut [Reg.vf] s (s.setFlag f) := by
  intro r hr
  rw [State.getV_setFlag, if_neg (List.ne_of_not_mem_cons hr)]

/-! ## `00E0` (R120) -/

theorem exec_cls (s : State) : exec .cls s = .next ({ s with fb := Frame.blank, chg := true } : State).advance := rfl

/-- Settles O21: `exec_cls`, a blank display having no set pixel. -/
theorem clearDisplay : Obligations.ClearDisplay := by
  intro s
  refine ⟨by decide, _, exec_cls s, Frame.pixel_blank, rfl, rfl, ?_⟩
  have hdisplay := sameBut_display s Frame.blank true
  exact sameBut_trans (sameBut_mono (by decide) hdisplay) (sameBut_mono (by decide) (sameBut_advance _))

/-! ## `Dxyn` (R121) -/

/-- The `n` sprite rows at `I`. -/
def spriteRows (s : State) (n : Height) : List Byte :=
  (List.range n.val).map fun k => Memory.byte s.mem (s.i.toNat + k)

/-- The display and the collision bit once the sprite of `Dxyn` is drawn. -/
def drawnCanvas (s : State) (x y : Reg) (n : Height) : Canvas :=
  Canvas.drawRows ⟨s.fb, false⟩ (spriteRows s n) (originX (s.getV x)) (originY (s.getV y))

/-- The state after a `Dxyn` that does not fault. -/
def afterDraw (s : State) (x y : Reg) (n : Height) : State :=
  (({ s with fb := (drawnCanvas s x y n).frame, chg := true } : State).setFlag (drawnCanvas s x y n).coll).advance

theorem exec_drw_of_inRange {s : State} {n : Height} (h : n.val = 0 ∨ s.i.toNat + (n.val - 1) ≤ 0xFFF) (x y : Reg) :
    exec (.drw x y n) s = .next (afterDraw s x y n) := by
  rcases State.loadAtI_cases s n.val with ⟨-, hrows⟩ | ⟨hn, hlt, -⟩
  · simp only [exec, execDrw, hrows]
    rfl
  · omega

theorem exec_drw_of_not_inRange {s : State} {n : Height} (hn : 0 < n.val) (h : 0xFFF < s.i.toNat + (n.val - 1))
    (x y : Reg) : exec (.drw x y n) s = .next { s with flt := .addressRange } := by
  rcases State.loadAtI_cases s n.val with ⟨hle, -⟩ | ⟨-, -, hnone⟩
  · omega
  · simp only [exec, execDrw, hnone, raise]

@[simp] theorem spriteRows_length (s : State) (n : Height) : (spriteRows s n).length = n.val := by
  rw [spriteRows, List.length_map, List.length_range]

theorem spriteRows_getD {s : State} {n : Height} {k : Nat} (h : k < n.val) :
    (spriteRows s n).getD k 0 = Memory.byte s.mem (s.i.toNat + k) := by
  simp [spriteRows, List.getD_eq_getElem?_getD, h]

/-- The drawing loops flip the pixels of the clipped sprite and no other. -/
theorem drawnCanvas_flips (s : State) (x y : Reg) (n : Height) :
    Flips (spriteBit s x y n) ⟨s.fb, false⟩ (drawnCanvas s x y n) := by
  refine (Canvas.drawRows_flips _ (spriteRows s n) _ _).congr fun px py _ _ => ?_
  simp only [spriteBit, originX, originY, spriteRows_length]
  by_cases hin : (s.getV x).toNat % 64 ≤ px ∧ px < (s.getV x).toNat % 64 + 8 ∧
      (s.getV y).toNat % 32 ≤ py ∧ py < (s.getV y).toNat % 32 + n.val
  · rw [spriteRows_getD (by omega)]
  · simp only [hin, decide_false, Bool.false_and]

/-- The collision bit of a draw (R121). -/
theorem drawnCanvas_coll_iff (s : State) (x y : Reg) (n : Height) :
    (drawnCanvas s x y n).coll = true ↔
      ∃ px py, px < 64 ∧ py < 32 ∧ s.fb.pixel px py = true ∧ spriteBit s x y n px py = true := by
  rw [(drawnCanvas_flips s x y n).coll]
  exact or_iff_right Bool.false_ne_true

theorem afterDraw_pixel (s : State) (x y : Reg) (n : Height) {px py : Nat} (hx : px < 64) (hy : py < 32) :
    (afterDraw s x y n).fb.pixel px py = (s.fb.pixel px py ^^ spriteBit s x y n px py) :=
  (drawnCanvas_flips s x y n).pixel px py hx hy

theorem afterDraw_vf (s : State) (x y : Reg) (n : Height) :
    (afterDraw s x y n).getV Reg.vf = if (drawnCanvas s x y n).coll then 1 else 0 := by
  rw [afterDraw, State.getV_advance, State.getV_setFlag, if_pos rfl]

theorem regsBut_afterDraw (s : State) (x y : Reg) (n : Height) : regsBut [Reg.vf] s (afterDraw s x y n) :=
  regsBut_setFlag { s with fb := (drawnCanvas s x y n).frame, chg := true } (drawnCanvas s x y n).coll

theorem sameBut_afterDraw (s : State) (x y : Reg) (n : Height) :
    sameBut [.regs, .display, .changed, .counter] s (afterDraw s x y n) := by
  have hdisplay := sameBut_display s (drawnCanvas s x y n).frame true
  have hflag := sameBut_setFlag { s with fb := (drawnCanvas s x y n).frame, chg := true } (drawnCanvas s x y n).coll
  exact sameBut_trans (sameBut_mono (by decide) hdisplay)
    (sameBut_trans (sameBut_mono (by decide) hflag) (sameBut_mono (by decide) (sameBut_advance _)))

theorem encode_drw_toNat (x y : Reg) (n : Height) :
    (encode (.drw x y n)).toNat = 0xD000 + 256 * x.val + 16 * y.val + n.val := by
  have hcls : (0xD#4).toNat = 13 := rfl
  rw [encode, packXYN_toNat, regBits_toNat, hcls]
  omega

/-- Settles O22: the flipped pixels are those of `spriteBit` (`drawnCanvas_flips`), and VF is the collision bit
(`drawnCanvas_coll_iff`). -/
theorem drawXorsTheClippedSprite : Obligations.DrawXorsTheClippedSprite := by
  intro s x y n
  refine ⟨encode_drw_toNat x y n, fun hrange => ?_, fun hn hlt => exec_drw_of_not_inRange hn hlt x y⟩
  refine ⟨_, exec_drw_of_inRange hrange x y, fun px py => afterDraw_pixel s x y n, fun hit => ?_, fun miss => ?_,
    rfl, regsBut_afterDraw s x y n, rfl, sameBut_afterDraw s x y n⟩
  · rw [afterDraw_vf, if_pos ((drawnCanvas_coll_iff s x y n).mpr hit)]
  · rw [afterDraw_vf, if_neg]
    intro hcoll
    obtain ⟨px, py, hx, hy, hset, hbit⟩ := (drawnCanvas_coll_iff s x y n).mp hcoll
    exact absurd hbit (Bool.eq_false_iff.mp (miss px py hx hy hset))

end Sys2Proof.Machine

/-!
# Control transfer (spec/42_control_transfer.md)

The two stack operations leave their frame, a skip its two addresses, each said once; the obligations join these to
`State.push_cases`, `State.pop_cases` and the value of each opcode.
-/

namespace Sys2Proof

/-! ## The value of an opcode, in the order of its digits (R81) -/

theorem packNNN_toNat_digits (c : BitVec 4) (nnn : Imm12) :
    (packNNN c nnn).toNat = 0x1000 * c.toNat + nnn.toNat := by
  rw [packNNN_toNat, Nat.mul_comm]

theorem packXNN_toNat_digits (c : BitVec 4) (x : Reg) (nn : Byte) :
    (packXNN c x nn).toNat = 0x1000 * c.toNat + 256 * x.val + nn.toNat := by
  rw [packXNN_toNat, Nat.mul_comm c.toNat, Nat.mul_comm x.val]

theorem packXYN_toNat_digits (c : BitVec 4) (x y : Reg) (n : BitVec 4) :
    (packXYN c x y n).toNat = 0x1000 * c.toNat + 256 * x.val + 16 * y.val + n.toNat := by
  rw [packXYN_toNat, Nat.mul_comm c.toNat, Nat.mul_comm x.val, Nat.mul_comm y.val]

/-! ## The classes that require a low digit 0 (R84, R88) -/

theorem decodeIfLowZero_eq_none {op : Word} (h : op.toNat % 16 ≠ 0) (i : Instr) : decodeIfLowZero op i = none := by
  refine if_neg fun low => h ?_
  rw [← lowNibble_toNat, low]
  rfl

/-- `5xy1` to `5xyF` and `9xy1` to `9xyF`. -/
theorem decodeWord_of_skip_class_low_ne_zero {op : Word} (hcls : op.toNat / 4096 = 5 ∨ op.toNat / 4096 = 9)
    (hlow : op.toNat % 16 ≠ 0) : decodeWord op = .error (.unknownOpcode op) := by
  refine (decodeWord_error_iff op _).mpr ⟨?_, rfl⟩
  rcases hcls with hcls | hcls <;> rw [← fieldCls_toNat] at hcls <;> simp only [decodeOption, hcls]
  · exact decodeIfLowZero_eq_none hlow _
  · exact decodeIfLowZero_eq_none hlow _

end Sys2Proof

namespace Sys2Proof.Machine

/-! ## The stack operations (spec/10_state.md R26) -/

theorem sameBut_pointer (s : State) (p : Fin 17) : sameBut [.pointer] s { s with sp := p } := by
  intro p hp
  have same := Part.same_refl p s
  cases p with
  | pointer => exact absurd List.mem_cons_self hp
  | _ => exact same

theorem sameBut_stack (s : State) (entries : Vector Word 16) : sameBut [.stack] s { s with stack := entries } := by
  intro p hp
  have same := Part.same_refl p s
  cases p with
  | stack => exact absurd List.mem_cons_self hp
  | _ => exact same

theorem exec_ret_of_pop {s t : State} {w : Word} (h : s.pop = some (w, t)) : exec .ret s = .next (t.goto w) := by
  simp only [exec, execRet, h]

theorem exec_ret_of_empty {s : State} (h : s.pop = none) :
    exec .ret s = .next { s with flt := .stackUnderflow } := by
  simp only [exec, execRet, h, raise]

theorem exec_call_of_push {s t : State} (h : s.push s.pcn = some t) (nnn : Imm12) :
    exec (.call nnn) s = .next (t.goto (zextNNN nnn)) := by
  simp only [exec, execCall, h]

theorem exec_call_of_full {s : State} (h : s.push s.pcn = none) (nnn : Imm12) :
    exec (.call nnn) s = .next { s with flt := .stackOverflow } := by
  simp only [exec, execCall, h, raise]

/-! ## `00EE` (R131) -/

/-- Settles O25: the two outcomes of `State.pop_cases`, told apart by SP. -/
theorem returnPopsTheStack : Obligations.ReturnPopsTheStack := by
  intro s
  rcases State.pop_cases s with ⟨w, t, hpop, ⟨k, hk, hw⟩, hsp, ht⟩ | ⟨hpop, hzero⟩
  · refine ⟨rfl, fun j hj => ?_, fun hempty => by omega⟩
    obtain rfl : k = j := Fin.ext (by omega)
    have hframe : sameBut [.pointer] s t := ht ▸ sameBut_pointer s t.sp
    exact ⟨t.goto w, exec_ret_of_pop hpop, Nat.succ.inj (hsp.trans hj), hw,
      sameBut_trans (sameBut_mono (by decide) hframe) (sameBut_mono (by decide) (sameBut_goto t w))⟩
  · exact ⟨rfl, fun j hj => by omega, fun _ => exec_ret_of_empty hpop⟩

/-! ## `1nnn` and `Bnnn` (R132, R138) -/

/-- Settles O26: the value of each opcode and of each target. -/
theorem jumpsInstallTheirTarget : Obligations.JumpsInstallTheirTarget := by
  intro s nnn
  refine ⟨packNNN_toNat_digits 0x1 nnn, packNNN_toNat_digits 0xB nnn, ?_, ?_⟩
  · exact ⟨_, rfl, zextNNN_toNat nnn, sameBut_goto s _⟩
  · exact ⟨_, rfl, zextNNN_add_zextByte_toNat nnn (s.getV 0), sameBut_goto s _⟩

/-! ## `2nnn` (R133) -/

/-- Settles O27: the two outcomes of `State.push_cases`, told apart by SP. -/
theorem callPushesTheReturnAddress : Obligations.CallPushesTheReturnAddress := by
  intro s nnn
  rcases State.push_cases s s.pcn with ⟨t, hpush, hlt, hsp, hstack, ht⟩ | ⟨hpush, hfull⟩
  · refine ⟨packNNN_toNat_digits 0x2 nnn, fun _ => ?_, fun hfull => by omega⟩
    have hframe : sameBut [.stack, .pointer] s t := ht ▸
      sameBut_trans (sameBut_mono (by decide) (sameBut_stack s t.stack)) (sameBut_mono (by decide) (sameBut_pointer _ t.sp))
    exact ⟨t.goto (zextNNN nnn), exec_call_of_push hpush nnn, zextNNN_toNat nnn, hsp, hstack,
      sameBut_trans (sameBut_mono (by decide) hframe) (sameBut_mono (by decide) (sameBut_goto t _))⟩
  · exact ⟨packNNN_toNat_digits 0x2 nnn, fun hroom => by omega, fun _ => exec_call_of_full hpush nnn⟩

/-! ## The conditional skips (R130, R134 to R137) -/

theorem State.pcn_add_two (s : State) : s.pcn + 2 = s.pc + 4 := BitVec.add_assoc s.pc 2 2

/-- A skip on equality, as `3xnn` and `5xy0` do it. -/
theorem skipIf_beq (s : State) (a b : Byte) :
    (a = b → (s.skipIf (a == b)).pc = s.pc + 4) ∧ (a ≠ b → (s.skipIf (a == b)).pc = s.pc + 2) ∧
      sameBut [.counter] s (s.skipIf (a == b)) := by
  refine ⟨fun heq => ?_, fun hne => ?_, sameBut_skipIf s _⟩
  · rw [State.skipIf_pc, if_pos (beq_iff_eq.mpr heq), State.pcn_add_two]
  · rw [State.skipIf_pc, if_neg (mt beq_iff_eq.mp hne), State.pcn_eq]

/-- A skip on inequality, as `4xnn` and `9xy0` do it. -/
theorem skipIf_bne (s : State) (a b : Byte) :
    (a ≠ b → (s.skipIf (a != b)).pc = s.pc + 4) ∧ (a = b → (s.skipIf (a != b)).pc = s.pc + 2) ∧
      sameBut [.counter] s (s.skipIf (a != b)) := by
  refine ⟨fun hne => ?_, fun heq => ?_, sameBut_skipIf s _⟩
  · rw [State.skipIf_pc, if_pos (bne_iff_ne.mpr hne), State.pcn_add_two]
  · rw [State.skipIf_pc, if_neg fun h => bne_iff_ne.mp h heq, State.pcn_eq]

/-- Settles O29: `skipIf_beq` and `skipIf_bne` on V[x] and nn. -/
theorem skipsOnImmediate : Obligations.SkipsOnImmediate := by
  intro s x nn
  refine ⟨packXNN_toNat_digits 0x3 x nn, packXNN_toNat_digits 0x4 x nn, ?_, ?_⟩
  · exact ⟨_, rfl, skipIf_beq s (s.getV x) nn⟩
  · exact ⟨_, rfl, skipIf_bne s (s.getV x) nn⟩

/-- Settles O30: `skipIf_beq` and `skipIf_bne` on V[x] and V[y], and the low digit the class map requires. -/
theorem skipsOnRegisters : Obligations.SkipsOnRegisters := by
  refine ⟨fun op => decodeWord_of_skip_class_low_ne_zero, fun s x y => ?_⟩
  refine ⟨packXYN_toNat_digits 0x5 x y 0, packXYN_toNat_digits 0x9 x y 0, ?_, ?_⟩
  · exact ⟨_, rfl, skipIf_beq s (s.getV x) (s.getV y)⟩
  · exact ⟨_, rfl, skipIf_bne s (s.getV x) (s.getV y)⟩

end Sys2Proof.Machine

/-!
# Registers, arithmetic and logic (spec/43_register_alu.md)

Each of these instructions ends in `writeReg` or `writeWithFlag`. What those two leave is said once; an obligation joins it
to the number of each result and of each flag.
-/

namespace Sys2Proof

/-- The value of a word of class 8, by its low digit `n` (R85). -/
theorem packXYN_class8_toNat (x y : Reg) (n : BitVec 4) :
    (packXYN 0x8#4 x y n).toNat = 0x8000 + n.toNat + 256 * x.val + 16 * y.val := by
  have hcls : (0x8#4).toNat = 8 := rfl
  rw [packXYN_toNat_digits, hcls]
  omega

end Sys2Proof

namespace Sys2Proof.Machine

/-! ## A result without a flag -/

theorem State.getV_writeReg_same (s : State) (x : Reg) (b : Byte) : (s.writeReg x b).getV x = b := by
  rw [State.getV_writeReg, if_pos rfl]

/-- All that a register write leaves alone, VF among it, and PC. -/
theorem writeReg_frame (s : State) (x : Reg) (b : Byte) :
    regsBut [x] s (s.writeReg x b) ∧ (s.writeReg x b).pc = s.pc + 2 ∧ sameBut [.regs, .counter] s (s.writeReg x b) :=
  ⟨regsBut_writeReg s x b, State.writeReg_pc s x b, sameBut_writeReg s x b⟩

/-- Settles O31: the written register and `writeReg_frame`. -/
theorem loadImmediate : Obligations.LoadImmediate := by
  intro s x nn
  exact ⟨packXNN_toNat_digits 0x6 x nn, _, rfl, State.getV_writeReg_same s x nn, writeReg_frame s x nn⟩

/-- Settles O32: a sum of bytes is taken modulo 256. -/
theorem addImmediate : Obligations.AddImmediate := by
  intro s x nn
  refine ⟨packXNN_toNat_digits 0x7 x nn, _, rfl, ?_, writeReg_frame s x _⟩
  rw [State.getV_writeReg_same, BitVec.toNat_add]

/-- Settles O33: the bits of each result and `writeReg_frame`. -/
theorem copyAndLogic : Obligations.CopyAndLogic := by
  intro s x y
  refine ⟨⟨packXYN_class8_toNat x y 0, packXYN_class8_toNat x y 1, packXYN_class8_toNat x y 2,
    packXYN_class8_toNat x y 3⟩, ?ldReg, ?orReg, ?andReg, ?xorReg⟩
  case ldReg => exact ⟨_, rfl, State.getV_writeReg_same s x _, writeReg_frame s x _⟩
  case orReg =>
    refine ⟨_, rfl, fun k => ?_, writeReg_frame s x _⟩
    rw [State.getV_writeReg_same, BitVec.getLsbD_or]
  case andReg =>
    refine ⟨_, rfl, fun k => ?_, writeReg_frame s x _⟩
    rw [State.getV_writeReg_same, BitVec.getLsbD_and]
  case xorReg =>
    refine ⟨_, rfl, fun k => ?_, writeReg_frame s x _⟩
    rw [State.getV_writeReg_same, BitVec.getLsbD_xor]

/-! ## The flags as numbers (R150) -/

theorem carryOut_toNat (a b : Byte) : (carryOut a b).toNat = if 255 < a.toNat + b.toNat then 1 else 0 :=
  Bool.cond_decide _ 1 0

theorem noBorrow_toNat (a b : Byte) : (noBorrow a b).toNat = if b.toNat ≤ a.toNat then 1 else 0 :=
  Bool.cond_decide _ 1 0

theorem lowBit_toNat (a : Byte) : (lowBit a).toNat = a.toNat % 2 := by
  rw [lowBit, BitVec.getLsbD, Nat.toNat_testBit, pow_zero, Nat.div_one]

theorem highBit_toNat (a : Byte) : (highBit a).toNat = a.toNat / 128 := by
  rw [highBit, BitVec.getLsbD, Nat.toNat_testBit]
  have hlt : a.toNat < 256 := a.isLt
  omega

/-! ## A result with a flag (R23, R157 to R161) -/

/-- What a result and its flag leave, by their numbers: where `x = 0xF` the result is lost and VF is the flag. -/
theorem writeWithFlag_rule (s : State) (x : Reg) {b : Byte} {f : Bool} {value flag : Nat} (hvalue : b.toNat = value)
    (hflag : f.toNat = flag) :
    (x ≠ Reg.vf → ((s.writeWithFlag x b f).getV x).toNat = value) ∧
      ((s.writeWithFlag x b f).getV Reg.vf).toNat = flag ∧ regsBut [x, Reg.vf] s (s.writeWithFlag x b f) ∧
      (s.writeWithFlag x b f).pc = s.pc + 2 ∧ sameBut [.regs, .counter] s (s.writeWithFlag x b f) := by
  refine ⟨fun hx => ?_, ?_, regsBut_writeWithFlag s x b f, State.writeWithFlag_pc s x b f, sameBut_writeWithFlag s x b f⟩
  · rw [State.getV_writeWithFlag, if_neg hx, if_pos rfl, hvalue]
  · rw [State.getV_writeWithFlag, if_pos rfl, ← hflag]
    cases f <;> rfl

/-- Settles O34: the sum modulo 256 and `carryOut_toNat`. -/
theorem addRegistersWithCarry : Obligations.AddRegistersWithCarry := by
  intro s x y
  exact ⟨packXYN_class8_toNat x y 4, _, rfl, writeWithFlag_rule s x (BitVec.toNat_add ..) (carryOut_toNat ..)⟩

/-- A difference of bytes, with the modulus added to the minuend. -/
theorem byte_toNat_sub (a b : Byte) : (a - b).toNat = (256 + a.toNat - b.toNat) % 256 := by
  have hlt : b.toNat < 256 := b.isLt
  rw [BitVec.toNat_sub]
  omega

/-- Settles O35: the difference modulo 256 and `noBorrow_toNat`, with the operands in either order. -/
theorem subtractRegistersBothWays : Obligations.SubtractRegistersBothWays := by
  intro s x y
  refine ⟨⟨packXYN_class8_toNat x y 5, _, rfl, ?sub⟩, ⟨packXYN_class8_toNat x y 7, _, rfl, ?subn⟩⟩
  case sub => exact writeWithFlag_rule s x (byte_toNat_sub ..) (noBorrow_toNat ..)
  case subn => exact writeWithFlag_rule s x (byte_toNat_sub ..) (noBorrow_toNat ..)

theorem byte_toNat_shiftLeft_one (a : Byte) : (a <<< 1).toNat = 2 * a.toNat % 256 := by
  rw [BitVec.toNat_shiftLeft, Nat.shiftLeft_eq, pow_one, Nat.mul_comm]

/-- Settles O36: half or double the value, and the bit shifted out (`lowBit_toNat`, `highBit_toNat`). -/
theorem shiftsMoveVxAndIgnoreY : Obligations.ShiftsMoveVxAndIgnoreY := by
  intro s x y
  refine ⟨⟨packXYN_class8_toNat x y 6, _, rfl, ?shr⟩, ⟨packXYN_class8_toNat x y 0xE, _, rfl, ?shl⟩⟩
  case shr => exact writeWithFlag_rule s x (BitVec.toNat_ushiftRight ..) (lowBit_toNat ..)
  case shl => exact writeWithFlag_rule s x (byte_toNat_shiftLeft_one ..) (highBit_toNat ..)

/-! ## The random byte (R170) -/

theorem State.rndByte_of_rndIn {s : State} {b : Byte} (h : s.rndIn = some b) : s.rndByte = b := by
  rw [State.rndByte, h, Option.getD_some]

theorem sameBut_takeRnd (s : State) : sameBut [.random] s s.takeRnd := by
  intro p hp
  rcases State.takeRnd_cases s with ⟨r, -, -, htake⟩ | ⟨-, -, htake⟩ <;> rw [htake]
  all_goals
    have same := Part.same_refl p s
    cases p with
    | random => exact absurd List.mem_cons_self hp
    | _ => exact same

theorem regsBut_takeRnd_writeReg (s : State) (x : Reg) (b : Byte) : regsBut [x] s (s.takeRnd.writeReg x b) := by
  intro r hr
  rw [regsBut_writeReg s.takeRnd x b r hr, State.getV_takeRnd]

/-- Settles O37: the byte is `s.rndByte`, whatever it is, and the mask leaves no bit of it outside `nn`. -/
theorem randomByteUnderMask : Obligations.RandomByteUnderMask := by
  intro s x nn
  have hvalue := State.getV_writeReg_same s.takeRnd x (s.rndByte &&& nn)
  refine ⟨packXNN_toNat_digits 0xC x nn, _, s.rndByte, rfl, fun b => State.rndByte_of_rndIn, hvalue, ?_,
    regsBut_takeRnd_writeReg s x _, ?_, ?_⟩
  · rw [hvalue, BitVec.and_assoc, BitVec.and_not_self]
    exact BitVec.and_zero
  · rw [State.writeReg_pc, State.takeRnd_pc]
  · exact sameBut_trans (sameBut_mono (by decide) (sameBut_takeRnd s)) (sameBut_mono (by decide) (sameBut_writeReg _ x _))

end Sys2Proof.Machine

/-!
# Index register and memory (spec/44_index_memory.md)

Where the range at `I` is in memory, `Fx33` and `Fx55` leave `State.withStored` and `Fx65` leaves `State.withLoaded`. What
memory and the registers read afterwards is said once for each of the two.
-/

namespace Sys2Proof

/-- The value of a word of class 0xF, by its low byte (R85). -/
theorem packXNN_classF_toNat (x : Reg) (nn : Byte) : (packXNN 0xF#4 x nn).toNat = 0xF000 + nn.toNat + 256 * x.val := by
  have hcls : (0xF#4).toNat = 15 := rfl
  rw [packXNN_toNat_digits, hcls]
  omega

end Sys2Proof

namespace Sys2Proof.Machine

/-! ## Setting I (R180 to R182) -/

/-- A glyph address is below 0x10000, so nothing wraps. -/
theorem fontAddress_toNat (b : Byte) : (fontAddress b).toNat = 0x50 + 5 * (b.toNat % 16) := by
  have hnibble : (b.extractLsb' 0 4).toNat = b.toNat % 16 := by rw [BitVec.extractLsb'_toNat, Nat.shiftRight_zero]
  rw [fontAddress, BitVec.toNat_ofNat, hnibble, Config.fontBase]
  omega

/-- Settles O38: the number of each value written to I; the frame is that of one write to I. -/
theorem settingTheIndexRegister : Obligations.SettingTheIndexRegister := by
  intro s nnn x
  refine ⟨⟨packNNN_toNat_digits 0xA nnn, ?ldI⟩, ⟨packXNN_classF_toNat x 0x1E, ?addI⟩,
    ⟨packXNN_classF_toNat x 0x29, ?ldF⟩⟩
  case ldI => exact ⟨_, rfl, zextNNN_toNat nnn, rfl, sameBut_index s _⟩
  case addI =>
    refine ⟨_, rfl, ?_, rfl, sameBut_index s _⟩
    rw [State.advance_i, BitVec.toNat_add, zextByte_toNat]
  case ldF => exact ⟨_, rfl, fontAddress_toNat (s.getV x), rfl, sameBut_index s _⟩

/-! ## Frames -/

theorem sameBut_memory (s : State) (m : Memory) : sameBut [.memory] s { s with mem := m } := by
  intro p hp
  have same := Part.same_refl p s
  cases p with
  | memory => exact absurd List.mem_cons_self hp
  | _ => exact same

theorem sameBut_regs (s : State) (v : Vector Byte 16) : sameBut [.regs] s { s with v := v } := by
  intro p hp
  have same := Part.same_refl p s
  cases p with
  | regs => exact absurd List.mem_cons_self hp
  | _ => exact same

theorem sameBut_bumpI_advance (s : State) (x : Reg) : sameBut [.index, .counter] s (s.bumpI x).advance :=
  sameBut_index s _

/-- `I` moved past a range that is in memory does not wrap. -/
theorem State.bumpI_i_toNat {s : State} {x : Reg} (h : s.i.toNat + x.val ≤ 0xFFF) :
    (s.bumpI x).i.toNat = s.i.toNat + x.val + 1 := by
  rw [State.bumpI_i, BitVec.toNat_add, BitVec.toNat_ofNat]
  omega

/-! ## Bytes stored at I (spec/20_memory.md R64) -/

/-- The state with the bytes `bs` stored at `I`, `I + 1`, ... -/
def State.withStored (s : State) (bs : List Byte) : State := { s with mem := Memory.putAll s.mem s.i.toNat bs }

theorem State.storeAtI_of_inRange {s : State} {bs : List Byte} (h : s.i.toNat + bs.length ≤ 4096) :
    s.storeAtI bs = some (s.withStored bs) := by
  rcases State.storeAtI_cases s bs with ⟨-, hstore⟩ | ⟨-, hlt, -⟩
  · exact hstore
  · omega

theorem State.storeAtI_of_not_inRange {s : State} {bs : List Byte} (hne : bs ≠ [])
    (h : 4096 < s.i.toNat + bs.length) : s.storeAtI bs = none := by
  rcases State.storeAtI_cases s bs with ⟨hnil | hle, -⟩ | ⟨-, -, hnone⟩
  · exact absurd hnil hne
  · omega
  · exact hnone

/-- Each stored byte reads as it was stored. -/
theorem State.read_withStored {s : State} {bs : List Byte} (hwf : Memory.wf s.mem)
    (hrange : s.i.toNat + bs.length ≤ 4096) {k : Nat} (hk : k < bs.length) :
    Memory.read (s.withStored bs).mem (s.i.toNat + k) = some (bs.getD k 0) := by
  rw [Memory.read_eq, if_pos (by omega), State.withStored, Memory.byte_putAll _ _ _ _ hwf.1, if_pos (by omega),
    Nat.add_sub_cancel_left]

/-- Every byte outside the stored range reads as before. -/
theorem State.memoryBut_withStored {s : State} (hwf : Memory.wf s.mem) (bs : List Byte) :
    memoryBut s.i.toNat bs.length s (s.withStored bs) := by
  intro b hb
  have hbyte : Memory.byte (s.withStored bs).mem b = Memory.byte s.mem b := by
    rw [State.withStored, Memory.byte_putAll _ _ _ _ hwf.1, if_neg (by omega)]
  rw [Memory.read_eq, Memory.read_eq, hbyte]

theorem State.sameBut_withStored (s : State) (bs : List Byte) : sameBut [.memory] s (s.withStored bs) :=
  sameBut_memory s _

/-! ## `Fx33` (R183) -/

@[simp] theorem bcdDigits_length (b : Byte) : (bcdDigits b).length = 3 := rfl

theorem exec_ldB_of_inRange {s : State} (h : s.i.toNat + 2 ≤ 0xFFF) (x : Reg) :
    exec (.ldB x) s = .next (s.withStored (bcdDigits (s.getV x))).advance := by
  have hrange : s.i.toNat + (bcdDigits (s.getV x)).length ≤ 4096 := by rw [bcdDigits_length]; omega
  simp only [exec, execLdB, State.storeAtI_of_inRange hrange]

theorem exec_ldB_of_not_inRange {s : State} (h : 0xFFF < s.i.toNat + 2) (x : Reg) :
    exec (.ldB x) s = .next { s with flt := .addressRange } := by
  have hrange : 4096 < s.i.toNat + (bcdDigits (s.getV x)).length := by rw [bcdDigits_length]; omega
  have hnone := State.storeAtI_of_not_inRange (List.ne_nil_of_length_eq_add_one (bcdDigits_length _)) hrange
  simp only [exec, execLdB, hnone, raise]

/-- Settles O39: the three bytes of `State.read_withStored`, with the frame of a store. -/
theorem storeDecimalDigits : Obligations.StoreDecimalDigits := by
  intro s x
  refine ⟨packXNN_classF_toNat x 0x33, fun hwf hle => ?_, fun hlt => exec_ldB_of_not_inRange hlt x⟩
  have hread {k : Nat} (hk : k < 3) :
      Memory.read (s.withStored (bcdDigits (s.getV x))).mem (s.i.toNat + k) = some ((bcdDigits (s.getV x)).getD k 0) :=
    State.read_withStored hwf (by rw [bcdDigits_length]; omega) hk
  refine ⟨_, exec_ldB_of_inRange hle x, hread (k := 0) (by decide), hread (k := 1) (by decide),
    hread (k := 2) (by decide), State.memoryBut_withStored hwf (bcdDigits (s.getV x)), rfl, ?_⟩
  exact sameBut_trans (sameBut_mono (by decide) (State.sameBut_withStored s _))
    (sameBut_mono (by decide) (sameBut_advance _))

/-! ## `Fx55` (R184) -/

theorem exec_stRegs_of_inRange {s : State} {x : Reg} (h : s.i.toNat + x.val ≤ 0xFFF) :
    exec (.stRegs x) s = .next ((s.withStored (s.regsUpTo x)).bumpI x).advance := by
  have hrange : s.i.toNat + (s.regsUpTo x).length ≤ 4096 := by rw [State.regsUpTo_length]; omega
  simp only [exec, execStRegs, State.storeAtI_of_inRange hrange]

theorem exec_stRegs_of_not_inRange {s : State} {x : Reg} (h : 0xFFF < s.i.toNat + x.val) :
    exec (.stRegs x) s = .next { s with flt := .addressRange } := by
  have hlen := State.regsUpTo_length s x
  have hnone := State.storeAtI_of_not_inRange (s := s) (List.ne_nil_of_length_eq_add_one hlen) (by omega)
  simp only [exec, execStRegs, hnone, raise]

/-- Settles O40: the bytes of `State.read_withStored`, which `State.regsUpTo_getD` names. -/
theorem storeRegistersMovesTheIndex : Obligations.StoreRegistersMovesTheIndex := by
  intro s x
  refine ⟨packXNN_classF_toNat x 0x55, fun hwf hle => ?_, exec_stRegs_of_not_inRange⟩
  have hlen := State.regsUpTo_length s x
  refine ⟨_, exec_stRegs_of_inRange hle, fun k hk => ?_, hlen ▸ State.memoryBut_withStored hwf (s.regsUpTo x),
    State.bumpI_i_toNat (s := s.withStored _) hle, rfl, ?_⟩
  · have hlt : k.val < (s.regsUpTo x).length := hlen ▸ Nat.lt_succ_of_le hk
    exact (State.read_withStored hwf (by omega) hlt).trans (congrArg some (State.regsUpTo_getD s x k hk))
  · exact sameBut_trans (sameBut_mono (by decide) (State.sameBut_withStored s _))
      (sameBut_mono (by decide) (sameBut_bumpI_advance _ x))

/-! ## `Fx65` (R185) -/

/-- The state with `V[0..x]` loaded from `I`, `I + 1`, ... -/
def State.withLoaded (s : State) (x : Reg) : State :=
  { s with v := setRegs s.v 0 ((List.range (x.val + 1)).map fun k => Memory.byte s.mem (s.i.toNat + k)) }

/-- Each loaded register holds its byte, every register above `V[x]` what it held. -/
theorem State.getV_withLoaded (s : State) (x k : Reg) :
    (s.withLoaded x).getV k = if k ≤ x then Memory.byte s.mem (s.i.toNat + k.val) else s.getV k := by
  have hiff : k ≤ x ↔ k.val < x.val + 1 := Nat.lt_succ_iff.symm
  rw [State.getV, State.withLoaded, setRegs_get]
  by_cases hk : k.val < x.val + 1
  · simp [hiff, hk, List.getD_eq_getElem?_getD]
  · simp [hiff, hk, State.getV]

theorem State.sameBut_withLoaded (s : State) (x : Reg) : sameBut [.regs] s (s.withLoaded x) := sameBut_regs s _

theorem exec_ldRegs_of_inRange {s : State} {x : Reg} (h : s.i.toNat + x.val ≤ 0xFFF) :
    exec (.ldRegs x) s = .next ((s.withLoaded x).bumpI x).advance := by
  rcases State.loadAtI_cases s (x.val + 1) with ⟨-, hload⟩ | ⟨-, hlt, -⟩
  · simp only [exec, execLdRegs, hload]
    rfl
  · omega

theorem exec_ldRegs_of_not_inRange {s : State} {x : Reg} (h : 0xFFF < s.i.toNat + x.val) :
    exec (.ldRegs x) s = .next { s with flt := .addressRange } := by
  rcases State.loadAtI_cases s (x.val + 1) with ⟨hle, -⟩ | ⟨-, -, hnone⟩
  · omega
  · simp only [exec, execLdRegs, hnone, raise]

/-- Settles O41: the registers of `State.getV_withLoaded`, on either side of `x`. -/
theorem loadRegistersMovesTheIndex : Obligations.LoadRegistersMovesTheIndex := by
  intro s x
  refine ⟨packXNN_classF_toNat x 0x65, fun hle => ?_, exec_ldRegs_of_not_inRange⟩
  refine ⟨_, exec_ldRegs_of_inRange hle, fun k hk => ?_, fun k hk => ?_, State.bumpI_i_toNat (s := s.withLoaded x) hle,
    rfl, ?_⟩
  · have hkx : k.val ≤ x.val := hk
    rw [Memory.read_eq, if_pos (by omega), State.getV_advance, State.getV_bumpI, State.getV_withLoaded, if_pos hk]
  · rw [State.getV_advance, State.getV_bumpI, State.getV_withLoaded, if_neg (not_le.mpr hk)]
  · exact sameBut_trans (sameBut_mono (by decide) (State.sameBut_withLoaded s x))
      (sameBut_mono (by decide) (sameBut_bumpI_advance _ x))

end Sys2Proof.Machine

/-!
# Keys and timers (spec/45_keys_timers.md)

What a register's key index and the scan of `Fx0A` come to is read off `keyOf_cases` and `State.scanKeys_cases`; the
obligations join this to the two addresses of a skip and to the frame of one write.
-/

namespace Sys2Proof

/-- The value of a word of class 0xE, by its low byte (R85). -/
theorem packXNN_classE_toNat (x : Reg) (nn : Byte) : (packXNN 0xE#4 x nn).toNat = 0xE000 + nn.toNat + 256 * x.val := by
  have hcls : (0xE#4).toNat = 14 := rfl
  rw [packXNN_toNat_digits, hcls]
  omega

end Sys2Proof

namespace Sys2Proof.Machine

/-! ## `Ex9E` and `ExA1` (R200, R201) -/

theorem keyOf_of_toNat_eq {b : Byte} {k : Key} (h : b.toNat = k.val) : keyOf b = some k := by
  have hk := k.isLt
  rcases keyOf_cases b with ⟨j, hkey, hj⟩ | ⟨-, hlt⟩
  · rw [hkey, Fin.ext (hj.trans h)]
  · omega

theorem keyOf_of_gt {b : Byte} (h : 15 < b.toNat) : keyOf b = none := by
  rcases keyOf_cases b with ⟨j, -, hj⟩ | ⟨hnone, -⟩
  · have hlt := j.isLt
    omega
  · exact hnone

theorem exec_skp_of_key {s : State} {x : Reg} {k : Key} (h : (s.getV x).toNat = k.val) :
    exec (.skp x) s = .next (s.skipIf (s.keyDown k)) := by
  simp only [exec, execSkp, keyOf_of_toNat_eq h]

theorem exec_sknp_of_key {s : State} {x : Reg} {k : Key} (h : (s.getV x).toNat = k.val) :
    exec (.sknp x) s = .next (s.skipIf (!s.keyDown k)) := by
  simp only [exec, execSknp, keyOf_of_toNat_eq h]

theorem exec_skp_of_gt {s : State} {x : Reg} (h : 15 < (s.getV x).toNat) :
    exec (.skp x) s = .next { s with flt := .keyIndex } := by
  simp only [exec, execSkp, keyOf_of_gt h, raise]

theorem exec_sknp_of_gt {s : State} {x : Reg} (h : 15 < (s.getV x).toNat) :
    exec (.sknp x) s = .next { s with flt := .keyIndex } := by
  simp only [exec, execSknp, keyOf_of_gt h, raise]

/-- A skip on a condition, in terms of `PC`. -/
theorem skipIf_pc_eq (s : State) (c : Bool) : (s.skipIf c).pc = if c then s.pc + 4 else s.pc + 2 := by
  rw [State.skipIf_pc, State.pcn_add_two, State.pcn_eq]

/-- A skip on the complement of a condition. -/
theorem skipIf_not_pc_eq (s : State) (c : Bool) : (s.skipIf (!c)).pc = if c then s.pc + 2 else s.pc + 4 := by
  rw [skipIf_pc_eq]
  cases c <;> rfl

/-- Settles O44: the skip on the named key's state or on its complement, and the fault where no key is named. -/
theorem skipsOnKey : Obligations.SkipsOnKey := by
  intro s x
  refine ⟨packXNN_classE_toNat x 0x9E, packXNN_classE_toNat x 0xA1, fun k hk => ⟨?skp, ?sknp⟩,
    fun hgt => ⟨exec_skp_of_gt hgt, exec_sknp_of_gt hgt⟩⟩
  case skp => exact ⟨_, exec_skp_of_key hk, skipIf_pc_eq s _, sameBut_skipIf s _⟩
  case sknp => exact ⟨_, exec_sknp_of_key hk, skipIf_not_pc_eq s _, sameBut_skipIf s _⟩

/-! ## `Fx0A` (R203) -/

theorem State.scanKeys_of_no_key {s : State} (h : ∀ k : Key, s.keyDown k = false) : s.scanKeys = none := by
  rcases State.scanKeys_cases s with ⟨k, -, hk, -⟩ | ⟨hnone, -⟩
  · exact absurd hk (Bool.eq_false_iff.mp (h k))
  · exact hnone

theorem State.scanKeys_of_highest {s : State} {k : Key} (hk : s.keyDown k = true)
    (hmax : ∀ j : Key, s.keyDown j = true → j ≤ k) : s.scanKeys = some k := by
  rcases State.scanKeys_cases s with ⟨j, hscan, hj, hjmax⟩ | ⟨-, hno⟩
  · rw [hscan, le_antisymm (hmax j hj) (hjmax k hk)]
  · exact absurd hk (Bool.eq_false_iff.mp (hno k))

theorem exec_ldVxK_of_no_key {s : State} (h : ∀ k : Key, s.keyDown k = false) (x : Reg) :
    exec (.ldVxK x) s = .next s := by
  simp only [exec, execLdVxK, State.scanKeys_of_no_key h]

theorem exec_ldVxK_of_highest {s : State} {k : Key} (hk : s.keyDown k = true)
    (hmax : ∀ j : Key, s.keyDown j = true → j ≤ k) (x : Reg) :
    exec (.ldVxK x) s = .next (s.writeReg x (BitVec.ofNat 8 k.val)) := by
  simp only [exec, execLdVxK, State.scanKeys_of_highest hk hmax]

/-- A key index fits a register. -/
theorem key_toNat_ofNat (k : Key) : (BitVec.ofNat 8 k.val).toNat = k.val := by
  have hlt := k.isLt
  rw [BitVec.toNat_ofNat]
  omega

/-- Settles O46: the two outcomes of the scan, and `writeReg_frame` where a key is found. -/
theorem waitForKeyTakesTheHighest : Obligations.WaitForKeyTakesTheHighest := by
  intro s x
  refine ⟨packXNN_classF_toNat x 0x0A, fun hno => exec_ldVxK_of_no_key hno x, fun k hk hmax => ?_⟩
  refine ⟨_, exec_ldVxK_of_highest hk hmax x, ?_, writeReg_frame s x _⟩
  rw [State.getV_writeReg_same, key_toNat_ofNat]

/-! ## `Fx07`, `Fx15` and `Fx18` (R202, R204, R205) -/

theorem sameBut_delay (s : State) (b : Byte) : sameBut [.delay] s { s with dt := b } := by
  intro p hp
  have same := Part.same_refl p s
  cases p with
  | delay => exact absurd List.mem_cons_self hp
  | _ => exact same

theorem sameBut_sound (s : State) (b : Byte) : sameBut [.sound] s { s with st := b } := by
  intro p hp
  have same := Part.same_refl p s
  cases p with
  | sound => exact absurd List.mem_cons_self hp
  | _ => exact same

/-- The sound output is active while the sound timer runs (R28). -/
theorem State.soundActive_iff (s : State) : s.soundActive = true ↔ s.st ≠ 0 := bne_iff_ne

/-- Settles O45: the written register or timer, with the frame of that one write. -/
theorem timerAccess : Obligations.TimerAccess := by
  intro s x
  refine ⟨⟨packXNN_classF_toNat x 0x07, ?ldVxDT⟩, ⟨packXNN_classF_toNat x 0x15, ?ldDT⟩,
    ⟨packXNN_classF_toNat x 0x18, ?ldST⟩⟩
  case ldVxDT => exact ⟨_, rfl, State.getV_writeReg_same s x s.dt, writeReg_frame s x _⟩
  case ldDT =>
    exact ⟨_, rfl, rfl, rfl, sameBut_trans (sameBut_mono (by decide) (sameBut_delay s _))
      (sameBut_mono (by decide) (sameBut_advance _))⟩
  case ldST =>
    exact ⟨_, rfl, rfl, State.soundActive_iff _, rfl, sameBut_trans (sameBut_mono (by decide) (sameBut_sound s _))
      (sameBut_mono (by decide) (sameBut_advance _))⟩

end Sys2Proof.Machine

/-!
# Faults and the timer unit (spec/60_exceptions.md)

`Raises` is the table of causes (R221), read off the state an instruction starts in. An instruction the table gives a
cause latches it and does nothing else; any other leaves the latch alone. What a step latches follows from these two.
-/

namespace Sys2Proof.Machine

/-! ## The causes of an instruction (R221) -/

/-- `Raises s i c`: the table gives `i`, run in `s`, the cause `c`. -/
inductive Raises (s : State) : Instr → Cause → Prop
  | call (nnn : Imm12) (hfull : s.sp.val = 16) : Raises s (.call nnn) .stackOverflow
  | ret (hempty : s.sp.val = 0) : Raises s .ret .stackUnderflow
  | drw (x y : Reg) (n : Height) (hn : 0 < n.val) (hlt : 0xFFF < s.i.toNat + n.val - 1) :
    Raises s (.drw x y n) .addressRange
  | ldB (x : Reg) (hlt : 0xFFF < s.i.toNat + 2) : Raises s (.ldB x) .addressRange
  | stRegs (x : Reg) (hlt : 0xFFF < s.i.toNat + x.val) : Raises s (.stRegs x) .addressRange
  | ldRegs (x : Reg) (hlt : 0xFFF < s.i.toNat + x.val) : Raises s (.ldRegs x) .addressRange
  | skp (x : Reg) (hgt : 15 < (s.getV x).toNat) : Raises s (.skp x) .keyIndex
  | sknp (x : Reg) (hgt : 15 < (s.getV x).toNat) : Raises s (.sknp x) .keyIndex

theorem State.push_eq_none {s : State} (h : s.sp.val = 16) (w : Word) : s.push w = none := by
  rcases State.push_cases s w with ⟨-, -, hlt, -⟩ | ⟨hpush, -⟩
  · omega
  · exact hpush

theorem State.pop_eq_none {s : State} (h : s.sp.val = 0) : s.pop = none := by
  rcases State.pop_cases s with ⟨-, -, -, ⟨j, hj, -⟩, -⟩ | ⟨hpop, -⟩
  · omega
  · exact hpop

/-- An instruction that the table gives a cause latches it and does nothing else (R222). -/
theorem exec_of_raises {s : State} {i : Instr} {c : Cause} (h : Raises s i c) :
    exec i s = .next { s with flt := c } := by
  cases h with
  | call nnn hfull => exact exec_call_of_full (State.push_eq_none hfull _) nnn
  | ret hempty => exact exec_ret_of_empty (State.pop_eq_none hempty)
  | drw x y n hn hlt => exact exec_drw_of_not_inRange hn (by omega) x y
  | ldB x hlt => exact exec_ldB_of_not_inRange hlt x
  | stRegs x hlt => exact exec_stRegs_of_not_inRange hlt
  | ldRegs x hlt => exact exec_ldRegs_of_not_inRange hlt
  | skp x hgt => exact exec_skp_of_gt hgt
  | sknp x hgt => exact exec_sknp_of_gt hgt

/-- An instruction that the table gives no cause leaves the latch as it is: the eight that can fault by the condition they
check, any other outright. -/
theorem raises_or_exec_flt {s t : State} {i : Instr} (h : exec i s = .next t) :
    (∃ c, Raises s i c) ∨ t.flt = s.flt := by
  cases i with
  | call nnn =>
    rcases State.push_cases s s.pcn with ⟨u, hpush, -, -, -, hu⟩ | ⟨-, hfull⟩
    · cases (exec_call_of_push hpush nnn).symm.trans h
      have same : u.flt = s.flt := by rw [hu]
      exact .inr same
    · exact .inl ⟨_, .call nnn hfull⟩
  | ret =>
    rcases State.pop_cases s with ⟨w, u, hpop, -, -, hu⟩ | ⟨-, hempty⟩
    · cases (exec_ret_of_pop hpop).symm.trans h
      have same : u.flt = s.flt := by rw [hu]
      exact .inr same
    · exact .inl ⟨_, .ret hempty⟩
  | drw x y n =>
    by_cases hrange : n.val = 0 ∨ s.i.toNat + (n.val - 1) ≤ 0xFFF
    · cases (exec_drw_of_inRange hrange x y).symm.trans h
      exact .inr rfl
    · exact .inl ⟨_, .drw x y n (by omega) (by omega)⟩
  | ldB x =>
    rcases Nat.lt_or_ge 0xFFF (s.i.toNat + 2) with hlt | hle
    · exact .inl ⟨_, .ldB x hlt⟩
    · cases (exec_ldB_of_inRange hle x).symm.trans h
      exact .inr rfl
  | stRegs x =>
    rcases Nat.lt_or_ge 0xFFF (s.i.toNat + x.val) with hlt | hle
    · exact .inl ⟨_, .stRegs x hlt⟩
    · cases (exec_stRegs_of_inRange hle).symm.trans h
      exact .inr rfl
  | ldRegs x =>
    rcases Nat.lt_or_ge 0xFFF (s.i.toNat + x.val) with hlt | hle
    · exact .inl ⟨_, .ldRegs x hlt⟩
    · cases (exec_ldRegs_of_inRange hle).symm.trans h
      exact .inr rfl
  | skp x =>
    rcases keyOf_cases (s.getV x) with ⟨k, -, hk⟩ | ⟨-, hgt⟩
    · cases (exec_skp_of_key hk.symm).symm.trans h
      exact .inr rfl
    · exact .inl ⟨_, .skp x hgt⟩
  | sknp x =>
    rcases keyOf_cases (s.getV x) with ⟨k, -, hk⟩ | ⟨-, hgt⟩
    · cases (exec_sknp_of_key hk.symm).symm.trans h
      exact .inr rfl
    · exact .inl ⟨_, .sknp x hgt⟩
  | rnd x nn =>
    cases h
    exact .inr (State.takeRnd_flt s)
  | ldVxK x =>
    rcases State.scanKeys_cases s with ⟨k, -, hk, hmax⟩ | ⟨-, hno⟩
    · cases (exec_ldVxK_of_highest hk hmax x).symm.trans h
      exact .inr rfl
    · cases (exec_ldVxK_of_no_key hno x).symm.trans h
      exact .inr rfl
  | _ =>
    cases h
    exact .inr rfl

/-! ## The causes of a step (R221, R223) -/

/-- The cause a step from `s` raises: that of the fetch, which is tested first, or that of the instruction it runs
(R228). -/
def StepRaises (s : State) (c : Cause) : Prop :=
  (c = .addressRange ∧ 0xFFE < s.pc.toNat) ∨ ∃ i, executes s i ∧ Raises s i c

theorem step_of_stepRaises {s : State} {c : Cause} (hf : s.flt = .noFault) (h : StepRaises s c) :
    step s = .next { s with flt := c } := by
  rcases h with ⟨rfl, hlt⟩ | ⟨i, hi, hr⟩
  · exact step_of_fetch_none hf (State.fetch_eq_none hlt)
  · exact (step_of_executes hi).trans (exec_of_raises hr)

/-- A step latches no cause but one it raises. -/
theorem stepRaises_of_step {s t : State} (hf : s.flt = .noFault) (h : step s = .next t) (ht : t.flt ≠ .noFault) :
    StepRaises s t.flt := by
  rcases step_cases s with ⟨hlatched, -⟩ | ⟨-, hop, he⟩ | ⟨op, i, -, hop, hd, he⟩ | ⟨op, -, -, -, he⟩
  · exact absurd hf hlatched
  · cases he.symm.trans h
    rcases State.fetch_cases s with ⟨-, hsome⟩ | ⟨hlt, -⟩
    · cases hop.symm.trans hsome
    · exact .inl ⟨rfl, hlt⟩
  · have hexec := he.symm.trans h
    rcases raises_or_exec_flt hexec with ⟨c, hr⟩ | same
    · cases (exec_of_raises hr).symm.trans hexec
      exact .inr ⟨i, ⟨hf, op, hop, hd⟩, hr⟩
    · exact absurd (same.trans hf) ht
  · cases he.symm.trans h
    exact absurd hf ht

/-- Settles O7: the latched cause is one the step raises, and such a step sets `FLT` alone. -/
theorem faultsArePrecise : Obligations.FaultsArePrecise := by
  intro s t h hf ht
  have hstep := step_of_stepRaises hf (stepRaises_of_step hf h ht)
  exact Host.Outcome.next.inj (h.symm.trans hstep)

theorem step_flt_eq_iff {s t : State} {c : Cause} (hf : s.flt = .noFault) (h : step s = .next t)
    (hc : c ≠ .noFault) : t.flt = c ↔ StepRaises s c := by
  constructor
  · rintro rfl
    exact stepRaises_of_step hf h hc
  · intro hr
    cases (step_of_stepRaises hf hr).symm.trans h
    rfl

/-! ## Each row of the table -/

theorem stepRaises_stackOverflow_iff (s : State) :
    StepRaises s .stackOverflow ↔ (∃ nnn, executes s (.call nnn)) ∧ s.sp.val = 16 := by
  constructor
  · rintro (⟨hc, -⟩ | ⟨i, hi, hr⟩)
    · cases hc
    · cases hr with
      | call nnn hfull => exact ⟨⟨nnn, hi⟩, hfull⟩
  · rintro ⟨⟨nnn, hi⟩, hfull⟩
    exact .inr ⟨_, hi, .call nnn hfull⟩

theorem stepRaises_stackUnderflow_iff (s : State) :
    StepRaises s .stackUnderflow ↔ executes s .ret ∧ s.sp.val = 0 := by
  constructor
  · rintro (⟨hc, -⟩ | ⟨i, hi, hr⟩)
    · cases hc
    · cases hr with
      | ret hempty => exact ⟨hi, hempty⟩
  · rintro ⟨hi, hempty⟩
    exact .inr ⟨_, hi, .ret hempty⟩

theorem stepRaises_addressRange_iff (s : State) :
    StepRaises s .addressRange ↔ 0xFFE < s.pc.toNat ∨
      (∃ x y n, executes s (.drw x y n) ∧ 0 < n.val ∧ 0xFFF < s.i.toNat + n.val - 1) ∨
      (∃ x, executes s (.ldB x) ∧ 0xFFF < s.i.toNat + 2) ∨
      (∃ x, (executes s (.stRegs x) ∨ executes s (.ldRegs x)) ∧ 0xFFF < s.i.toNat + x.val) := by
  constructor
  · rintro (⟨-, hfetch⟩ | ⟨i, hi, hr⟩)
    · exact .inl hfetch
    · cases hr with
      | drw x y n hn hlt => exact .inr (.inl ⟨x, y, n, hi, hn, hlt⟩)
      | ldB x hlt => exact .inr (.inr (.inl ⟨x, hi, hlt⟩))
      | stRegs x hlt => exact .inr (.inr (.inr ⟨x, .inl hi, hlt⟩))
      | ldRegs x hlt => exact .inr (.inr (.inr ⟨x, .inr hi, hlt⟩))
  · rintro (hfetch | ⟨x, y, n, hi, hn, hlt⟩ | ⟨x, hi, hlt⟩ | ⟨x, hi | hi, hlt⟩)
    · exact .inl ⟨rfl, hfetch⟩
    · exact .inr ⟨_, hi, .drw x y n hn hlt⟩
    · exact .inr ⟨_, hi, .ldB x hlt⟩
    · exact .inr ⟨_, hi, .stRegs x hlt⟩
    · exact .inr ⟨_, hi, .ldRegs x hlt⟩

theorem stepRaises_keyIndex_iff (s : State) :
    StepRaises s .keyIndex ↔ ∃ x, (executes s (.skp x) ∨ executes s (.sknp x)) ∧ 15 < (s.getV x).toNat := by
  constructor
  · rintro (⟨hc, -⟩ | ⟨i, hi, hr⟩)
    · cases hc
    · cases hr with
      | skp x hgt => exact ⟨x, .inl hi, hgt⟩
      | sknp x hgt => exact ⟨x, .inr hi, hgt⟩
  · rintro ⟨x, hi | hi, hgt⟩
    · exact .inr ⟨_, hi, .skp x hgt⟩
    · exact .inr ⟨_, hi, .sknp x hgt⟩

/-- Settles O8: a cause is latched where the step raises it (`step_flt_eq_iff`), which each row of the table spells out;
nothing but the cause is recorded by O7. -/
theorem faultsAreLatchedExactlyWhenTheTableSays : Obligations.FaultsAreLatchedExactlyWhenTheTableSays := by
  refine ⟨⟨rfl, rfl, rfl, rfl, rfl⟩, fun s t hf h => ⟨?overflow, ?underflow, ?range, ?key, faultsArePrecise s t h hf⟩⟩
  case overflow => exact (step_flt_eq_iff hf h (by decide)).trans (stepRaises_stackOverflow_iff s)
  case underflow => exact (step_flt_eq_iff hf h (by decide)).trans (stepRaises_stackUnderflow_iff s)
  case range => exact (step_flt_eq_iff hf h (by decide)).trans (stepRaises_addressRange_iff s)
  case key => exact (step_flt_eq_iff hf h (by decide)).trans (stepRaises_keyIndex_iff s)

/-! ## `tick` (R240) -/

/-- A counter goes down by one, floored at 0. -/
@[simp] theorem countDown_toNat (b : Byte) : (countDown b).toNat = b.toNat - 1 := by
  unfold countDown
  split <;> bv_omega

theorem sameBut_tickEvent (s : State) : sameBut [.delay, .sound] s (tickEvent s) :=
  sameBut_trans (sameBut_mono (by decide) (sameBut_delay s (countDown s.dt)))
    (sameBut_mono (by decide) (sameBut_sound _ (countDown s.st)))

/-- Settles O49: `countDown_toNat` for each timer, and the frame of the two writes. -/
theorem tickCountsBothTimersDown : Obligations.TickCountsBothTimersDown := by
  intro s
  have hdt : (tickEvent s).dt.toNat = s.dt.toNat - 1 := countDown_toNat s.dt
  have hst : (tickEvent s).st.toNat = s.st.toNat - 1 := countDown_toNat s.st
  exact ⟨_, rfl, by omega, by omega, by omega, by omega, sameBut_tickEvent s⟩

end Sys2Proof.Machine

/-!
# `load` (spec/70_reset_and_hazards.md R262, R263)

The report depends on the length alone; the memory a load leaves is the reset content with the image stored over it.
-/

namespace Sys2Proof.Machine

/-- An image that fits (R262). -/
theorem loadReport_of_le {img : List Byte} (h : img.length ≤ 3584) : loadReport img = .success :=
  if_pos (decide_eq_true h)

/-- An image that does not fit (R263). -/
theorem loadReport_of_lt {img : List Byte} (h : 3584 < img.length) : loadReport img = .imageTooLarge :=
  if_neg (by simpa [imageOk] using h)

/-- A load that fits is a reset and a store at `PROG_BASE` (R262). -/
theorem loadEvent_of_success {img : List Byte} (h : loadReport img = .success) (s : State) :
    loadEvent img s = { resetEvent s with mem := Memory.putAll (resetEvent s).mem 0x200 img } := by
  simp only [loadEvent, h]
  rfl

/-- A byte of a sequence stored anywhere in memory reads as written (`State.read_withStored` is the case of `I`). -/
theorem Memory.read_putAll_inside {m : Memory} (hm : Memory.wf m) {a k : Nat} {bs : List Byte} (hk : k < bs.length)
    (hlt : a + k < 4096) : Memory.read (Memory.putAll m a bs) (a + k) = some (bs.getD k 0) := by
  rw [Memory.read_eq, if_pos hlt, Memory.byte_putAll _ _ _ _ hm.1, if_pos (by omega), Nat.add_sub_cancel_left]

/-- A byte outside a stored sequence reads as before. -/
theorem Memory.read_putAll_outside {m : Memory} (hm : Memory.wf m) {a b : Nat} {bs : List Byte}
    (hb : b < a ∨ a + bs.length ≤ b) : Memory.read (Memory.putAll m a bs) b = Memory.read m b := by
  have hbyte : Memory.byte (Memory.putAll m a bs) b = Memory.byte m b := by
    rw [Memory.byte_putAll _ _ _ _ hm.1, if_neg (by omega)]
  rw [Memory.read_eq, Memory.read_eq, hbyte]

/-- Settles O48: the reset memory is canonical, so the stored image reads back, and nothing else moves. -/
theorem loadCopiesTheImageOrChangesNothing : Obligations.LoadCopiesTheImageOrChangesNothing := by
  intro img s
  refine ⟨fun hle => ?fits, fun hlt => ?tooLarge⟩
  case fits =>
    have hreport := loadReport_of_le hle
    have hwf : Memory.wf (resetEvent s).mem := Memory.reset_wf
    refine ⟨hreport, resetEvent s, _, rfl, congrArg Host.Outcome.next (loadEvent_of_success hreport s), rfl,
      fun k hk => ?_, fun a ha => ?_⟩
    · exact Memory.read_putAll_inside hwf hk (by omega)
    · exact Memory.read_putAll_outside hwf ha
  case tooLarge =>
    have hreport := loadReport_of_lt hlt
    exact ⟨hreport, congrArg Host.Outcome.next (loadEvent_of_imageTooLarge hreport s)⟩

end Sys2Proof.Machine

/-!
# Encoding and the fetched instruction (spec/30_encoding.md)

The fields of a packed word are the ones packed, so the class map reads an encoding back; a step then runs what its two
bytes decode to.
-/

namespace Sys2Proof

/-! ## The fields of a packed word (R11, R81) -/

@[simp] theorem fieldCls_packNNN (c : BitVec 4) (nnn : Imm12) : fieldCls (packNNN c nnn) = c := by
  have := nnn.isLt
  apply BitVec.eq_of_toNat_eq
  rw [fieldCls_toNat, packNNN_toNat]
  omega

@[simp] theorem fieldNNN_packNNN (c : BitVec 4) (nnn : Imm12) : fieldNNN (packNNN c nnn) = nnn := by
  have := nnn.isLt
  apply BitVec.eq_of_toNat_eq
  rw [fieldNNN_toNat, packNNN_toNat]
  omega

@[simp] theorem fieldCls_packXNN (c : BitVec 4) (x : Reg) (nn : Byte) : fieldCls (packXNN c x nn) = c := by
  have := nn.isLt
  apply BitVec.eq_of_toNat_eq
  rw [fieldCls_toNat, packXNN_toNat]
  omega

@[simp] theorem fieldX_packXNN (c : BitVec 4) (x : Reg) (nn : Byte) : fieldX (packXNN c x nn) = x := by
  have := nn.isLt
  apply Fin.ext
  rw [fieldX_val, packXNN_toNat]
  omega

@[simp] theorem fieldNN_packXNN (c : BitVec 4) (x : Reg) (nn : Byte) : fieldNN (packXNN c x nn) = nn := by
  have := nn.isLt
  apply BitVec.eq_of_toNat_eq
  rw [fieldNN_toNat, packXNN_toNat]
  omega

@[simp] theorem fieldCls_packXYN (c : BitVec 4) (x y : Reg) (n : BitVec 4) : fieldCls (packXYN c x y n) = c := by
  have := n.isLt
  apply BitVec.eq_of_toNat_eq
  rw [fieldCls_toNat, packXYN_toNat]
  omega

@[simp] theorem fieldX_packXYN (c : BitVec 4) (x y : Reg) (n : BitVec 4) : fieldX (packXYN c x y n) = x := by
  have := n.isLt
  apply Fin.ext
  rw [fieldX_val, packXYN_toNat]
  omega

@[simp] theorem fieldY_packXYN (c : BitVec 4) (x y : Reg) (n : BitVec 4) : fieldY (packXYN c x y n) = y := by
  have := n.isLt
  apply Fin.ext
  rw [fieldY_val, packXYN_toNat]
  omega

@[simp] theorem lowNibble_packXYN (c : BitVec 4) (x y : Reg) (n : BitVec 4) :
    (packXYN c x y n).extractLsb' 0 4 = n := by
  have := n.isLt
  apply BitVec.eq_of_toNat_eq
  rw [lowNibble_toNat, packXYN_toNat]
  omega

@[simp] theorem fieldN_packXYN (c : BitVec 4) (x y : Reg) (n : Height) : fieldN (packXYN c x y (regBits n)) = n :=
  congrArg BitVec.toFin (lowNibble_packXYN c x y (regBits n))

/-! ## Decoding an encoding (R83 to R86) -/

/-- The class map reads an encoding back: for each shape of opcode, the class, the sub-function where there is one, and
the fields. -/
theorem decodeOption_encode (i : Instr) : decodeOption (encode i) = some i := by
  cases i <;> dsimp only [encode]
  case cls | ret => rfl
  case jp | call | ldI | jpV0 =>
    simp only [decodeOption, fieldCls_packNNN, fieldNNN_packNNN]
    rfl
  case seImm | sneImm | ldImm | addImm | rnd =>
    simp only [decodeOption, fieldCls_packXNN, fieldX_packXNN, fieldNN_packXNN]
    rfl
  case drw =>
    simp only [decodeOption, fieldCls_packXYN, fieldX_packXYN, fieldY_packXYN, fieldN_packXYN]
    rfl
  case seReg | sneReg =>
    simp only [decodeOption, decodeIfLowZero, fieldCls_packXYN, fieldX_packXYN, fieldY_packXYN, lowNibble_packXYN]
    rfl
  case ldReg | orReg | andReg | xorReg | addReg | subReg | shr | subn | shl =>
    simp only [decodeOption, decodeAlu, fieldCls_packXYN, fieldX_packXYN, fieldY_packXYN, lowNibble_packXYN]
    rfl
  case skp | sknp =>
    simp only [decodeOption, decodeKeys, fieldCls_packXNN, fieldX_packXNN, fieldNN_packXNN]
    rfl
  case ldVxDT | ldVxK | ldDT | ldST | addI | ldF | ldB | stRegs | ldRegs =>
    simp only [decodeOption, decodeMisc, fieldCls_packXNN, fieldX_packXNN, fieldNN_packXNN]
    rfl

theorem decodeWord_encode (i : Instr) : decodeWord (encode i) = .ok i :=
  (decodeWord_ok_iff _ i).mpr (decodeOption_encode i)

/-- Settles O18: `decodeWord_encode`, the two bytes of a word giving it back. The field types are exact, so
well-formedness adds nothing. -/
theorem decodeOfEncodeIsTheInstruction : Obligations.DecodeOfEncodeIsTheInstruction :=
  fun i rest _ => (decode_bytesOfWord (encode i) rest i).mpr (decodeWord_encode i)

/-- Settles O20: each word is the encoding of its instruction; 0x5001 has a low digit that class 5 does not allow. -/
theorem writtenOutWordsDecode : Obligations.WrittenOutWordsDecode :=
  ⟨decodeWord_encode (.ldImm 0 0x05), decodeWord_encode (.addImm 0 0x03), decodeWord_encode .cls,
    decodeWord_encode (.ldVxK 0), decodeWord_encode (.drw 1 2 5), decodeWord_encode (.call 0x210),
    decodeWord_encode (.shr 2 3), decodeWord_encode (.ldRegs 2), decodeWord_encode (.sknp 3),
    decodeWord_encode (.rnd 1 0x0F), decodeWord_of_skip_class_low_ne_zero (.inl rfl) (by decide)⟩

/-- Decoding the bytes at the front of a sequence decodes their word (R65, R80). -/
theorem decodeWord_of_decode {hi lo : Byte} {rest rest' : List Byte} {i : Instr}
    (h : decode (hi :: lo :: rest) = .ok (i, rest')) : decodeWord (wordOfBytes hi lo) = .ok i := by
  cases hd : decodeWord (wordOfBytes hi lo) <;> rw [decode, hd] at h <;> cases h
  rfl

end Sys2Proof

namespace Sys2Proof.Machine

/-- Settles O1: the two bytes are the fetched word, so the step executes `i` (R101 to R103). -/
theorem stepRunsTheDecodedInstruction : Obligations.StepRunsTheDecodedInstruction := by
  intro s i hf hle hd _
  exact step_of_executes ⟨hf, _, State.fetch_eq_some hle, decodeWord_of_decode hd⟩

end Sys2Proof.Machine

/-!
# What an instruction may write and what it may read (spec/10_state.md, spec/40_step_cycle.md R106, R107)

`exec_written` is the column "written by" as one equation between records; who writes a field, and what a step leaves
alone, is read off it. `exec_overlay` is the same for reading, for the fields that the host sets.
-/

namespace Sys2Proof.Machine

/-! ## Totality (R106) -/

/-- Every instruction answers a next state: each that checks a condition in both outcomes, any other outright. -/
theorem exec_terminates (i : Instr) (s : State) : ∃ t, exec i s = .next t := by
  cases i with
  | ret =>
    rcases State.pop_cases s with ⟨w, t, hpop, -⟩ | ⟨hpop, -⟩
    · exact ⟨_, exec_ret_of_pop hpop⟩
    · exact ⟨_, exec_ret_of_empty hpop⟩
  | call nnn =>
    rcases State.push_cases s s.pcn with ⟨t, hpush, -⟩ | ⟨hpush, -⟩
    · exact ⟨_, exec_call_of_push hpush nnn⟩
    · exact ⟨_, exec_call_of_full hpush nnn⟩
  | drw x y n =>
    by_cases hrange : n.val = 0 ∨ s.i.toNat + (n.val - 1) ≤ 0xFFF
    · exact ⟨_, exec_drw_of_inRange hrange x y⟩
    · exact ⟨_, exec_drw_of_not_inRange (by omega) (by omega) x y⟩
  | ldB x =>
    rcases Nat.lt_or_ge 0xFFF (s.i.toNat + 2) with hlt | hle
    · exact ⟨_, exec_ldB_of_not_inRange hlt x⟩
    · exact ⟨_, exec_ldB_of_inRange hle x⟩
  | stRegs x =>
    rcases Nat.lt_or_ge 0xFFF (s.i.toNat + x.val) with hlt | hle
    · exact ⟨_, exec_stRegs_of_not_inRange hlt⟩
    · exact ⟨_, exec_stRegs_of_inRange hle⟩
  | ldRegs x =>
    rcases Nat.lt_or_ge 0xFFF (s.i.toNat + x.val) with hlt | hle
    · exact ⟨_, exec_ldRegs_of_not_inRange hlt⟩
    · exact ⟨_, exec_ldRegs_of_inRange hle⟩
  | skp x =>
    rcases keyOf_cases (s.getV x) with ⟨k, -, hk⟩ | ⟨-, hgt⟩
    · exact ⟨_, exec_skp_of_key hk.symm⟩
    · exact ⟨_, exec_skp_of_gt hgt⟩
  | sknp x =>
    rcases keyOf_cases (s.getV x) with ⟨k, -, hk⟩ | ⟨-, hgt⟩
    · exact ⟨_, exec_sknp_of_key hk.symm⟩
    · exact ⟨_, exec_sknp_of_gt hgt⟩
  | ldVxK x =>
    rcases State.scanKeys_cases s with ⟨k, -, hk, hmax⟩ | ⟨-, hno⟩
    · exact ⟨_, exec_ldVxK_of_highest hk hmax x⟩
    · exact ⟨_, exec_ldVxK_of_no_key hno x⟩
  | _ => exact ⟨_, rfl⟩

theorem step_terminates (s : State) : ∃ t, step s = .next t := by
  rcases step_cases s with ⟨-, he⟩ | ⟨-, -, he⟩ | ⟨op, i, -, -, -, he⟩ | ⟨op, -, -, -, he⟩ <;> rw [he]
  · exact ⟨_, rfl⟩
  · exact ⟨_, rfl⟩
  · exact exec_terminates i s
  · exact ⟨_, rfl⟩

theorem stepWith_terminates (r : Byte) (s : State) : ∃ t, stepWith r s = .next t := by
  obtain ⟨t, ht⟩ := step_terminates (s.withRnd (some r))
  exact ⟨t.withRnd s.rndIn, by rw [stepWith_eq, ht]; rfl⟩

/-- Every event but `step(rnd)` is a function on states by its definition. -/
theorem apply_terminates (e : Event) (s : State) : ∃ t, apply e s = .next t := by
  cases e with
  | step r => exact stepWith_terminates r s
  | _ => exact ⟨_, rfl⟩

/-- Settles O5: `step_terminates` and `apply_terminates`. -/
theorem everyStepAndEventTerminates : Obligations.EveryStepAndEventTerminates := ⟨step_terminates, apply_terminates⟩

/-! ## The column "written by" (spec/10_state.md section 1) -/

/-- `s` with the fields that the column "written by" gives `i`, and `PC` and `FLT`, taken from `t`. -/
def withWritten (i : Instr) (s t : State) : State :=
  match i with
  | .cls => { s with fb := t.fb, chg := t.chg, pc := t.pc, flt := t.flt }
  | .ret => { s with sp := t.sp, pc := t.pc, flt := t.flt }
  | .call _ => { s with stack := t.stack, sp := t.sp, pc := t.pc, flt := t.flt }
  | .ldI _ | .addI _ | .ldF _ => { s with i := t.i, pc := t.pc, flt := t.flt }
  | .drw _ _ _ => { s with v := t.v, fb := t.fb, chg := t.chg, pc := t.pc, flt := t.flt }
  | .ldDT _ => { s with dt := t.dt, pc := t.pc, flt := t.flt }
  | .ldST _ => { s with st := t.st, pc := t.pc, flt := t.flt }
  | .ldB _ => { s with mem := t.mem, pc := t.pc, flt := t.flt }
  | .stRegs _ => { s with mem := t.mem, i := t.i, pc := t.pc, flt := t.flt }
  | .ldRegs _ => { s with v := t.v, i := t.i, pc := t.pc, flt := t.flt }
  | .rnd _ _ => { s with v := t.v, rndIn := t.rndIn, draws := t.draws, pc := t.pc, flt := t.flt }
  | .jp _ | .jpV0 _ | .seImm _ _ | .sneImm _ _ | .seReg _ _ | .sneReg _ _ | .skp _ | .sknp _ =>
    { s with pc := t.pc, flt := t.flt }
  | .ldImm _ _ | .addImm _ _ | .ldReg _ _ | .orReg _ _ | .andReg _ _ | .xorReg _ _ | .addReg _ _ | .subReg _ _
  | .shr _ _ | .subn _ _ | .shl _ _ | .ldVxDT _ | .ldVxK _ => { s with v := t.v, pc := t.pc, flt := t.flt }

/-- A fault writes `FLT` alone, so it is within the column of any instruction. -/
theorem withWritten_fault (i : Instr) (s : State) (c : Cause) :
    withWritten i s { s with flt := c } = { s with flt := c } := by
  cases i <;> rfl

theorem withWritten_self (i : Instr) (s : State) : withWritten i s s = s := by
  cases i <;> rfl

/-- The keys are in no instruction's column. -/
theorem withWritten_key (i : Instr) (s t : State) : (withWritten i s t).key = s.key := by
  cases i <;> rfl

/-- An instruction writes no field but those of its column. -/
theorem exec_written {i : Instr} {s t : State} (h : exec i s = .next t) : t = withWritten i s t := by
  rcases exec_cases i s t h with ⟨c, -, rfl, -⟩ | shape
  · exact (withWritten_fault i s c).symm
  cases i with
  | ret => obtain ⟨w, u, -, rfl⟩ := shape; rfl
  | call nnn => obtain ⟨u, -, rfl⟩ := shape; rfl
  | ldVxK x =>
    rcases shape with rfl | shape
    · exact (withWritten_self _ t).symm
    · cases t; cases shape; rfl
  | _ => cases t; cases shape; rfl

/-- Settles O11: outside the column of an instruction `exec_written` gives back the field of before. -/
theorem onlyTheNamedInstructionsWriteEachPart : Obligations.OnlyTheNamedInstructionsWriteEachPart := by
  intro i s t h
  have hw := exec_written h
  refine ⟨fun hne => ?index, fun hne => ?stack, fun hne => ?pointer, fun hne => ?display, fun hne => ?changed,
    fun hne => ?delay, fun hne => ?sound, ?keys, fun hne => ?memory, fun hne => ?random⟩
  case index =>
    cases i with
    | ldI nnn => exact .inl ⟨nnn, rfl⟩
    | addI x => exact .inr (.inl ⟨x, rfl⟩)
    | ldF x => exact .inr (.inr (.inl ⟨x, rfl⟩))
    | stRegs x => exact .inr (.inr (.inr (.inl ⟨x, rfl⟩)))
    | ldRegs x => exact .inr (.inr (.inr (.inr ⟨x, rfl⟩)))
    | _ => exact absurd (congrArg State.i hw) hne
  case stack =>
    cases i with
    | call nnn => exact ⟨nnn, rfl⟩
    | _ => exact absurd (congrArg State.stack hw) hne
  case pointer =>
    cases i with
    | call nnn => exact .inl ⟨nnn, rfl⟩
    | ret => exact .inr rfl
    | _ => exact absurd (congrArg State.sp hw) hne
  case display =>
    cases i with
    | cls => exact .inl rfl
    | drw x y n => exact .inr ⟨x, y, n, rfl⟩
    | _ => exact absurd (congrArg State.fb hw) hne
  case changed =>
    cases i with
    | cls => exact .inl rfl
    | drw x y n => exact .inr ⟨x, y, n, rfl⟩
    | _ => exact absurd (congrArg State.chg hw) hne
  case delay =>
    cases i with
    | ldDT x => exact ⟨x, rfl⟩
    | _ => exact absurd (congrArg State.dt hw) hne
  case sound =>
    cases i with
    | ldST x => exact ⟨x, rfl⟩
    | _ => exact absurd (congrArg State.st hw) hne
  case keys => exact (congrArg State.key hw).trans (withWritten_key i s t)
  case memory =>
    cases i with
    | ldB x => exact .inl ⟨x, rfl⟩
    | stRegs x => exact .inr ⟨x, rfl⟩
    | _ => exact absurd (congrArg State.mem hw) hne
  case random =>
    cases i with
    | rnd x nn => exact ⟨x, nn, rfl⟩
    | _ => exact absurd (congrArg (fun u => (u.rndIn, u.draws)) hw) hne

/-! ## VF (spec/10_state.md R22, R23) -/

/-- A register write changes VF only where VF is the register written. -/
theorem eq_vf_of_writeReg {s : State} {x : Reg} {b : Byte} (hne : (s.writeReg x b).getV Reg.vf ≠ s.getV Reg.vf) :
    x = Reg.vf := by
  by_contra hx
  exact hne (by rw [State.getV_writeReg, if_neg (Ne.symm hx)])

/-- `Fx65` loads VF only as the last of all sixteen registers. -/
theorem eq_vf_of_exec_ldRegs {s t : State} {x : Reg} (h : exec (.ldRegs x) s = .next t)
    (hne : t.getV Reg.vf ≠ s.getV Reg.vf) : x = Reg.vf := by
  rcases Nat.lt_or_ge 0xFFF (s.i.toNat + x.val) with hlt | hle
  · cases (exec_ldRegs_of_not_inRange hlt).symm.trans h
    exact absurd rfl hne
  · cases (exec_ldRegs_of_inRange hle).symm.trans h
    rw [State.getV_advance, State.getV_bumpI, State.getV_withLoaded] at hne
    exact Fin.eq_last_of_not_lt fun hlt => hne (if_neg (not_le.mpr hlt))

/-- `Fx0A` writes one register, or none while it waits. -/
theorem eq_vf_of_exec_ldVxK {s t : State} {x : Reg} (h : exec (.ldVxK x) s = .next t)
    (hne : t.getV Reg.vf ≠ s.getV Reg.vf) : x = Reg.vf := by
  rcases State.scanKeys_cases s with ⟨k, -, hk, hmax⟩ | ⟨-, hno⟩
  · cases (exec_ldVxK_of_highest hk hmax x).symm.trans h
    exact eq_vf_of_writeReg hne
  · cases (exec_ldVxK_of_no_key hno x).symm.trans h
    exact absurd rfl hne

/-- Settles O12: the flag writers are named by the statement; of the others, one that writes a register changes VF only
where that is VF, and the rest write no register (`exec_written`). -/
theorem onlyFlagWritersAndNamedDestinationsChangeVf : Obligations.OnlyFlagWritersAndNamedDestinationsChangeVf := by
  intro i s t h hne
  have hw := exec_written h
  cases i with
  | addReg x y => exact .inl ⟨x, y, .inl rfl⟩
  | subReg x y => exact .inl ⟨x, y, .inr (.inl rfl)⟩
  | shr x y => exact .inl ⟨x, y, .inr (.inr (.inl rfl))⟩
  | subn x y => exact .inl ⟨x, y, .inr (.inr (.inr (.inl rfl)))⟩
  | shl x y => exact .inl ⟨x, y, .inr (.inr (.inr (.inr rfl)))⟩
  | drw x y n => exact .inr (.inl ⟨x, y, n, rfl⟩)
  | ldImm x nn => cases h; cases eq_vf_of_writeReg hne; exact .inr (.inr (.inl ⟨nn, .inl rfl⟩))
  | addImm x nn => cases h; cases eq_vf_of_writeReg hne; exact .inr (.inr (.inl ⟨nn, .inr (.inl rfl)⟩))
  | rnd x nn =>
    cases h
    rw [← State.getV_takeRnd s] at hne
    cases eq_vf_of_writeReg hne
    exact .inr (.inr (.inl ⟨nn, .inr (.inr rfl)⟩))
  | ldReg x y => cases h; cases eq_vf_of_writeReg hne; exact .inr (.inr (.inr (.inl ⟨y, .inl rfl⟩)))
  | orReg x y => cases h; cases eq_vf_of_writeReg hne; exact .inr (.inr (.inr (.inl ⟨y, .inr (.inl rfl)⟩)))
  | andReg x y => cases h; cases eq_vf_of_writeReg hne; exact .inr (.inr (.inr (.inl ⟨y, .inr (.inr (.inl rfl))⟩)))
  | xorReg x y => cases h; cases eq_vf_of_writeReg hne; exact .inr (.inr (.inr (.inl ⟨y, .inr (.inr (.inr rfl))⟩)))
  | ldVxDT x => cases h; cases eq_vf_of_writeReg hne; exact .inr (.inr (.inr (.inr (.inl rfl))))
  | ldVxK x => cases eq_vf_of_exec_ldVxK h hne; exact .inr (.inr (.inr (.inr (.inr (.inl rfl)))))
  | ldRegs x => cases eq_vf_of_exec_ldRegs h hne; exact .inr (.inr (.inr (.inr (.inr (.inr rfl)))))
  | _ => exact absurd (congrArg (State.getV · Reg.vf) hw) hne

/-- A flag is written last, as 0 or 1, whatever register the result went to (R23). -/
theorem writeWithFlag_vf (s : State) (x : Reg) (b : Byte) (f : Bool) :
    (s.writeWithFlag x b f).getV Reg.vf = 0 ∨ (s.writeWithFlag x b f).getV Reg.vf = 1 := by
  rw [State.getV_writeWithFlag, if_pos rfl]
  cases f
  · exact .inl rfl
  · exact .inr rfl

/-- Settles O13: `writeWithFlag_vf` for the arithmetic; a draw that does not fault leaves its collision bit. -/
theorem flagWritersLeaveZeroOrOne : Obligations.FlagWritersLeaveZeroOrOne := by
  rintro i s t h ht - (⟨x, y, arithmetic⟩ | ⟨x, y, n, rfl⟩)
  · rcases arithmetic with rfl | rfl | rfl | rfl | rfl
    all_goals
      cases h
      exact writeWithFlag_vf s x _ _
  · by_cases hrange : n.val = 0 ∨ s.i.toNat + (n.val - 1) ≤ 0xFFF
    · cases (exec_drw_of_inRange hrange x y).symm.trans h
      rw [afterDraw_vf]
      cases (drawnCanvas s x y n).coll
      · exact .inl rfl
      · exact .inr rfl
    · cases (exec_drw_of_not_inRange (by omega) (by omega) x y).symm.trans h
      cases ht

/-! ## The host's side of the state, changed (R107) -/

/-- New values for some of the fields that the host sets or reads: the random input, the timers, the keys, `CHG`. -/
structure HostSide where
  /-- For `rndIn` and `draws`. -/
  rnd : Option (Option Byte × Nat) := none
  /-- For `DT`. -/
  dt : Option Byte := none
  /-- For `ST`. -/
  st : Option Byte := none
  /-- For the keys. -/
  key : Option (Vector Bool 16) := none
  /-- For `CHG`. -/
  chg : Option Bool := none

/-- The state with those values. -/
def State.overlay (s : State) (o : HostSide) : State :=
  { s with
    rndIn := (o.rnd.map Prod.fst).getD s.rndIn, draws := (o.rnd.map Prod.snd).getD s.draws, dt := o.dt.getD s.dt,
    st := o.st.getD s.st, key := o.key.getD s.key, chg := o.chg.getD s.chg }

/-- `i` neither reads nor writes a field that `o` changes. -/
def HostSide.unusedBy (o : HostSide) : Instr → Prop
  | .rnd _ _ => o.rnd = none
  | .ldVxDT _ | .ldDT _ => o.dt = none
  | .ldST _ => o.st = none
  | .skp _ | .sknp _ | .ldVxK _ => o.key = none
  | .cls | .drw _ _ _ => o.chg = none
  | _ => True

/-- A result with those values in its next state. -/
def overlayResult (o : HostSide) : Result → Result
  | .next t => .next (t.overlay o)
  | .fault r => .fault r
  | .refused r => .refused r

theorem State.pop_overlay (s : State) (o : HostSide) : (s.overlay o).pop = s.pop.map fun p => (p.1, p.2.overlay o) := by
  unfold State.pop State.overlay
  split <;> rfl

theorem State.push_overlay (s : State) (o : HostSide) (w : Word) :
    (s.overlay o).push w = (s.push w).map fun t => t.overlay o := by
  unfold State.push State.overlay
  split <;> rfl

theorem State.storeAtI_overlay (s : State) (o : HostSide) (bs : List Byte) :
    (s.overlay o).storeAtI bs = (s.storeAtI bs).map fun t => t.overlay o := by
  simp only [State.storeAtI, State.overlay, Option.map_map, Function.comp_def]

@[simp] theorem State.pcn_overlay (s : State) (o : HostSide) : (s.overlay o).pcn = s.pcn := rfl
@[simp] theorem State.getV_overlay (s : State) (o : HostSide) (x : Reg) : (s.overlay o).getV x = s.getV x := rfl
@[simp] theorem State.regsUpTo_overlay (s : State) (o : HostSide) (x : Reg) :
    (s.overlay o).regsUpTo x = s.regsUpTo x := rfl
@[simp] theorem State.loadAtI_overlay (s : State) (o : HostSide) (n : Nat) :
    (s.overlay o).loadAtI n = s.loadAtI n := rfl

/-- An instruction does the same to a state with other values in fields it does not use: one that can fault by the
operation it branches on, one that uses such a field because that one is not changed, any other outright. -/
theorem exec_overlay {i : Instr} {o : HostSide} (ho : o.unusedBy i) (s : State) :
    exec i (s.overlay o) = overlayResult o (exec i s) := by
  obtain ⟨rnd, dt, st, key, chg⟩ := o
  cases i with
  | ret =>
    simp only [exec, execRet, State.pop_overlay]
    cases s.pop <;> rfl
  | call nnn =>
    simp only [exec, execCall, State.push_overlay, State.pcn_overlay]
    cases s.push s.pcn <;> rfl
  | ldB x =>
    simp only [exec, execLdB, State.getV_overlay, State.storeAtI_overlay]
    cases s.storeAtI (bcdDigits (s.getV x)) <;> rfl
  | stRegs x =>
    simp only [exec, execStRegs, State.regsUpTo_overlay, State.storeAtI_overlay]
    cases s.storeAtI (s.regsUpTo x) <;> rfl
  | ldRegs x =>
    simp only [exec, execLdRegs, State.loadAtI_overlay]
    cases s.loadAtI (x.val + 1) <;> rfl
  | drw x y n =>
    obtain rfl : chg = none := ho
    simp only [exec, execDrw, State.loadAtI_overlay]
    cases s.loadAtI n.val <;> rfl
  | skp x =>
    obtain rfl : key = none := ho
    simp only [exec, execSkp, State.getV_overlay]
    cases keyOf (s.getV x) <;> rfl
  | sknp x =>
    obtain rfl : key = none := ho
    simp only [exec, execSknp, State.getV_overlay]
    cases keyOf (s.getV x) <;> rfl
  | ldVxK x =>
    obtain rfl : key = none := ho
    have hscan : (s.overlay ⟨rnd, dt, st, none, chg⟩).scanKeys = s.scanKeys := rfl
    simp only [exec, execLdVxK, hscan]
    cases s.scanKeys <;> rfl
  | rnd x nn =>
    obtain rfl : rnd = none := ho
    obtain ⟨_, _, _, _, _, _, _, _, _, _, _, _, rndIn, _⟩ := s
    cases rndIn <;> rfl
  | cls => obtain rfl : chg = none := ho; rfl
  | ldVxDT x => obtain rfl : dt = none := ho; rfl
  | ldDT x => obtain rfl : dt = none := ho; rfl
  | ldST x => obtain rfl : st = none := ho; rfl
  | _ => rfl

theorem exec_overlay_next {i : Instr} {s t : State} (h : exec i s = .next t) {o : HostSide} (ho : o.unusedBy i) :
    exec i (s.overlay o) = .next (t.overlay o) := by
  rw [exec_overlay ho, h]
  rfl

/-- Settles O10: each clause is `exec_overlay` with one field changed, which the instructions left out alone use. -/
theorem unreadStateDoesNotMatter : Obligations.UnreadStateDoesNotMatter := by
  intro i s t h
  refine ⟨fun hrnd r d => ?rnd, fun hread hwrite b => ?delay, fun hwrite b => ?sound, fun hskp hsknp hwait ks => ?keys,
    fun hcls hdrw c => ?changed⟩
  case rnd =>
    refine exec_overlay_next h (o := { rnd := some (r, d) }) ?_
    cases i with
    | rnd x nn => exact absurd rfl (hrnd x nn)
    | _ => trivial
  case delay =>
    refine exec_overlay_next h (o := { dt := some b }) ?_
    cases i with
    | ldVxDT x => exact absurd rfl (hread x)
    | ldDT x => exact absurd rfl (hwrite x)
    | _ => trivial
  case sound =>
    refine exec_overlay_next h (o := { st := some b }) ?_
    cases i with
    | ldST x => exact absurd rfl (hwrite x)
    | _ => trivial
  case keys =>
    refine exec_overlay_next h (o := { key := some ks }) ?_
    cases i with
    | skp x => exact absurd rfl (hskp x)
    | sknp x => exact absurd rfl (hsknp x)
    | ldVxK x => exact absurd rfl (hwait x)
    | _ => trivial
  case changed =>
    refine exec_overlay_next h (o := { chg := some c }) ?_
    cases i with
    | cls => exact absurd rfl hcls
    | drw x y n => exact absurd rfl (hdrw x y n)
    | _ => trivial

end Sys2Proof.Machine

/-!
# The invariant of every reachable state (spec/10_state.md section 12) and what a step never writes (R107)

Memory and the stack come from the column "written by" (O11), `PC` from the sequencer table (O6). A step keeps each of the
three parts of `Inv`, and so does every event.
-/

namespace Sys2Proof.Machine

/-! ## What a step does outside an instruction -/

/-- A step runs an instruction, or writes at most `PC` and `FLT`. -/
theorem executes_or_frame_of_step {s t : State} (h : step s = .next t) :
    (∃ i, executes s i ∧ exec i s = .next t) ∨ ∃ p c, t = { s with pc := p, flt := c } := by
  rcases step_cases s with ⟨-, he⟩ | ⟨-, -, he⟩ | ⟨op, i, hf, hop, hd, he⟩ | ⟨op, -, -, -, he⟩ <;> rw [he] at h
  · cases h; exact .inr ⟨_, _, rfl⟩
  · cases h; exact .inr ⟨_, _, rfl⟩
  · exact .inl ⟨i, ⟨hf, op, hop, hd⟩, h⟩
  · cases h; exact .inr ⟨_, _, rfl⟩

/-- No instruction lowers `CHG` (R30). -/
theorem exec_chg {i : Instr} {s t : State} (h : exec i s = .next t) : t.chg = s.chg ∨ t.chg = true := by
  by_cases hsame : t.chg = s.chg
  · exact .inl hsame
  obtain ⟨-, -, -, -, hchanged, -⟩ := onlyTheNamedInstructionsWriteEachPart i s t h
  rcases hchanged hsame with rfl | ⟨x, y, n, rfl⟩
  · cases h; exact .inr rfl
  · rcases exec_cases _ s t h with ⟨c, -, rfl, -⟩ | shape
    · exact .inl rfl
    · exact .inr (congrArg State.chg shape)

/-- Settles O9: outside an instruction a step writes `PC` and `FLT` alone; an instruction writes no key and no timer but
by `Fx15` and `Fx18` (O11), and raises `CHG` or leaves it (`exec_chg`). -/
theorem stepNeverWritesTheHostsState : Obligations.StepNeverWritesTheHostsState := by
  intro s t h
  have hlatch (hf : s.flt ≠ .noFault) : t.flt = s.flt := by cases (step_of_latched hf).symm.trans h; rfl
  rcases executes_or_frame_of_step h with ⟨i, hi, he⟩ | ⟨p, c, rfl⟩
  · obtain ⟨-, -, -, -, -, hdelay, hsound, hkey, -, -⟩ := onlyTheNamedInstructionsWriteEachPart i s t he
    refine ⟨fun k => congrArg (fun ks : Vector Bool 16 => ks[k]) hkey, fun hc => ?_, hlatch, fun hne => ?_,
      fun hne => ?_⟩
    · exact (exec_chg he).elim (·.trans hc) id
    · obtain ⟨x, rfl⟩ := hdelay hne
      exact ⟨x, hi⟩
    · obtain ⟨x, rfl⟩ := hsound hne
      exact ⟨x, hi⟩
  · exact ⟨fun _ => rfl, id, hlatch, absurd rfl, absurd rfl⟩

/-! ## Memory in canonical form -/

theorem State.storeAtI_wf {s t : State} {bs : List Byte} (h : s.storeAtI bs = some t) (hwf : Memory.wf s.mem) :
    Memory.wf t.mem := by
  obtain ⟨m, hm, rfl⟩ := Option.map_eq_some_iff.mp h
  exact Memory.writeRange_wf s.mem m _ bs hm hwf

/-- An instruction keeps the form of memory: `Fx33` and `Fx55` by a store at `I`, any other by leaving memory alone. -/
theorem exec_mem_wf {i : Instr} {s t : State} (h : exec i s = .next t) (hwf : Memory.wf s.mem) : Memory.wf t.mem := by
  by_cases hsame : t.mem = s.mem
  · rwa [hsame]
  obtain ⟨-, -, -, -, -, -, -, -, hmem, -⟩ := onlyTheNamedInstructionsWriteEachPart i s t h
  rcases hmem hsame with ⟨x, rfl⟩ | ⟨x, rfl⟩
  all_goals
    simp only [exec, execLdB, execStRegs] at h
    split at h
    · cases h; exact hwf
    · next hstore =>
      have hkept := State.storeAtI_wf hstore hwf
      cases h
      exact hkept

theorem step_mem_wf {s t : State} (h : step s = .next t) (hwf : Memory.wf s.mem) : Memory.wf t.mem := by
  rcases executes_or_frame_of_step h with ⟨i, -, he⟩ | ⟨p, c, rfl⟩
  · exact exec_mem_wf he hwf
  · exact hwf

/-! ## The stack entries -/

/-- A fetched instruction has its successor at most one past the top of memory (R101). -/
theorem State.pcn_le_of_fetch {s : State} {op : Word} (hop : s.fetch = some op) : s.pcn.toNat ≤ 0x1000 := by
  have hpc := State.pc_le_of_fetch hop
  rw [State.pcn_toNat (by omega)]
  omega

/-- A call enters `pcn` and keeps the other entries; no other instruction writes the stack. -/
theorem exec_stack_le {i : Instr} {s t : State} (h : exec i s = .next t) (hpcn : s.pcn.toNat ≤ 0x1000)
    (hle : ∀ j : Fin 16, s.stack[j].toNat ≤ 0x1000) (j : Fin 16) : t.stack[j].toNat ≤ 0x1000 := by
  by_cases hsame : t.stack = s.stack
  · rw [hsame]; exact hle j
  obtain ⟨-, hstack, -⟩ := onlyTheNamedInstructionsWriteEachPart i s t h
  obtain ⟨nnn, rfl⟩ := hstack hsame
  rcases State.push_cases s s.pcn with ⟨u, hpush, -, -, hentry, -⟩ | ⟨hpush, -⟩
  · cases (exec_call_of_push hpush nnn).symm.trans h
    rw [State.goto_stack, hentry j]
    split
    · exact hpcn
    · exact hle j
  · cases (exec_call_of_full hpush nnn).symm.trans h
    exact hle j

theorem step_stack_le {s t : State} (h : step s = .next t) (hle : ∀ j : Fin 16, s.stack[j].toNat ≤ 0x1000)
    (j : Fin 16) : t.stack[j].toNat ≤ 0x1000 := by
  rcases executes_or_frame_of_step h with ⟨i, ⟨-, op, hop, -⟩, he⟩ | ⟨p, c, rfl⟩
  · exact exec_stack_le he (State.pcn_le_of_fetch hop) hle j
  · exact hle j

/-! ## The program counter -/

/-- Every value of the sequencer table is at most 0x10FE, the largest target of `Bnnn` (R38, R105). -/
theorem sequencer_le {i : Instr} {s : State} {p : Word} (h : sequencer i s p) (hpc : s.pc.toNat ≤ 0xFFE)
    (hstack : ∀ j : Fin 16, s.stack[j].toNat ≤ 0x1000) : p.toNat ≤ 0x10FE := by
  have hnext : s.pcn.toNat = s.pc.toNat + 2 := State.pcn_toNat (by omega)
  have hskip : (s.pcn + 2).toNat = s.pcn.toNat + 2 :=
    State.pcn_toNat (s := s.advance) (show s.pcn.toNat < 0xFFFE by omega)
  cases i with
  | jp nnn | call nnn =>
    have htarget : p.toNat = nnn.toNat := h
    have := nnn.isLt
    omega
  | jpV0 nnn =>
    have htarget : p.toNat = nnn.toNat + (s.getV 0).toNat := h
    have := nnn.isLt
    have := (s.getV 0).isLt
    omega
  | ret =>
    obtain ⟨j, -, rfl⟩ := h
    have := hstack j
    omega
  | _ => rcases h with ⟨-, rfl⟩ | ⟨-, rfl⟩ <;> omega

theorem step_pc_le {s t : State} (h : step s = .next t) (hpc : s.pc.toNat ≤ 0x10FE)
    (hstack : ∀ j : Fin 16, s.stack[j].toNat ≤ 0x1000) : t.pc.toNat ≤ 0x10FE := by
  obtain ⟨hlatched, hfaults, hruns⟩ := nextPcFollowsTheSequencerTable s t h
  by_cases hf : s.flt = .noFault
  · by_cases ht : t.flt = .noFault
    · rcases hruns hf ht with ⟨op, hop, -, he⟩ | ⟨i, ⟨-, op, hop, -⟩, hseq⟩
      · have := State.pcn_le_of_fetch hop
        rw [he]
        omega
      · exact sequencer_le hseq (State.pc_le_of_fetch hop) hstack
    · rwa [hfaults hf ht]
  · rwa [hlatched hf]

/-! ## The invariant -/

/-- Settles O14: the memory lists nothing, `PC` is 0x200 and the stack entries are 0. -/
theorem resetMeetsTheInvariant : Obligations.ResetMeetsTheInvariant := by
  refine ⟨Memory.reset_wf, by decide, fun j => ?_⟩
  rw [State.stack_reset]
  decide

/-- Settles O15: each part of the invariant by its own rule. -/
theorem stepKeepsTheInvariant : Obligations.StepKeepsTheInvariant := by
  rintro s t ⟨hmem, hpc, hstack⟩ h
  exact ⟨step_mem_wf h hmem, step_pc_le h hpc hstack, step_stack_le h hstack⟩

/-- The invariant speaks of memory, `PC` and the stack alone. -/
theorem Inv.congr {s t : State} (h : Inv s) (hmem : t.mem = s.mem) (hpc : t.pc = s.pc) (hstack : t.stack = s.stack) :
    Inv t := by
  unfold Inv
  rwa [hmem, hpc, hstack]

theorem resetEvent_inv (s : State) : Inv (resetEvent s) := resetMeetsTheInvariant.congr rfl rfl rfl

/-- A load resets and stores the image where it fits, or changes nothing (R262, R263). -/
theorem loadEvent_inv {s : State} (h : Inv s) (img : List Byte) : Inv (loadEvent img s) := by
  rcases Nat.lt_or_ge 3584 img.length with hlt | hle
  · rwa [loadEvent_of_imageTooLarge (loadReport_of_lt hlt)]
  · rw [loadEvent_of_success (loadReport_of_le hle)]
    obtain ⟨hmem, hpc, hstack⟩ := resetEvent_inv s
    exact ⟨Memory.putAll_wf _ _ img (.inr (by omega)) hmem, hpc, hstack⟩

/-- The host's byte is no part of the invariant. -/
theorem stepWith_inv {s t : State} {r : Byte} (h : Inv s) (he : stepWith r s = .next t) : Inv t := by
  obtain ⟨u, hu⟩ := step_terminates (s.withRnd (some r))
  rw [stepWith_eq, hu] at he
  cases he
  have hkept : Inv u := stepKeepsTheInvariant (s.withRnd (some r)) u (h.congr rfl rfl rfl) hu
  exact hkept.congr rfl rfl rfl

/-- Settles O16: `reset` and `load` start from the reset state, `step` is O15, and the other events write no part the
invariant speaks of. -/
theorem everyEventKeepsTheInvariant : Obligations.EveryEventKeepsTheInvariant := by
  intro e s t h he
  cases e with
  | reset => cases he; exact resetEvent_inv s
  | load img => cases he; exact loadEvent_inv h img
  | step r => exact stepWith_inv h he
  | keySet | ackChanged | tick => cases he; exact h.congr rfl rfl rfl

/-- What every event keeps holds after every run (R40). -/
theorem runEvents_induction {P : State → Prop} (hkept : ∀ e s t, P s → apply e s = .next t → P t) (es : List Event)
    {s t : State} (h : P s) (he : runEvents es s = .next t) : P t := by
  induction es generalizing s with
  | nil => cases he; exact h
  | cons e es ih =>
    obtain ⟨u, hu⟩ := apply_terminates e s
    rw [runEvents, hu] at he
    exact ih (hkept e s u h hu) he

theorem Cause.code_toNat_le (c : Cause) : c.code.toNat ≤ 4 := by
  cases c <;> decide

/-- Settles O17: the invariant holds at reset and every event keeps it; the bounds on `SP` and `FLT` are those of their
types. -/
theorem reachableStatesAreLegal : Obligations.ReachableStatesAreLegal := by
  intro es t he
  obtain ⟨hmem, hpc, hstack⟩ := runEvents_induction everyEventKeepsTheInvariant es resetMeetsTheInvariant he
  exact ⟨Nat.le_of_lt_succ t.sp.isLt, t.flt.code_toNat_le, hpc, fun j _ => hstack j, hmem⟩

end Sys2Proof.Machine

/-!
# Instructions in sequence (spec/20_memory.md R73, spec/41_display.md R123, spec/42_control_transfer.md,
spec/44_index_memory.md, spec/60_exceptions.md R241)

Two draws, a call and a return, a store and a load, a store and a fetch, and any number of ticks, each from what the
single instruction leaves.
-/

namespace Sys2Proof.Machine

/-! ## Two draws of one sprite (R123 (c)) -/

/-- Off the display there is no pixel. -/
theorem Frame.pixel_of_off (f : Frame) {px py : Nat} (h : ¬ (px < 64 ∧ py < 32)) : f.pixel px py = false := dif_neg h

/-- The sprite depends on `I`, memory and the two coordinates alone. -/
theorem spriteBit_congr {s u : State} {x y : Reg} (hi : u.i = s.i) (hmem : u.mem = s.mem) (hx : u.getV x = s.getV x)
    (hy : u.getV y = s.getV y) (n : Height) : spriteBit u x y n = spriteBit s x y n := by
  unfold spriteBit
  rw [hi, hmem, hx, hy]

/-- The flag of a draw (R121). -/
theorem afterDraw_vf_eq_one_iff (s : State) (x y : Reg) (n : Height) :
    (afterDraw s x y n).getV Reg.vf = 1 ↔
      ∃ px py, px < 64 ∧ py < 32 ∧ s.fb.pixel px py = true ∧ spriteBit s x y n px py = true := by
  rw [afterDraw_vf, ← drawnCanvas_coll_iff]
  cases (drawnCanvas s x y n).coll <;> decide

section
variable {s u : State} {x y : Reg} {n : Height} (hbit : spriteBit u x y n = spriteBit s x y n)
  (hfb : u.fb = (afterDraw s x y n).fb)
include hbit hfb

/-- The second of two equal draws undoes the first: a pixel is flipped twice or not at all. -/
theorem afterDraw_afterDraw_pixel (px py : Nat) : (afterDraw u x y n).fb.pixel px py = s.fb.pixel px py := by
  by_cases hin : px < 64 ∧ py < 32
  · obtain ⟨hx, hy⟩ := hin
    rw [afterDraw_pixel u x y n hx hy, hbit, hfb, afterDraw_pixel s x y n hx hy, Bool.xor_assoc, Bool.xor_self,
      Bool.xor_false]
  · rw [Frame.pixel_of_off _ hin, Frame.pixel_of_off _ hin]

/-- Under a sprite bit the second draw finds set what the first found clear. -/
theorem afterDraw_afterDraw_vf_eq_one_iff :
    (afterDraw u x y n).getV Reg.vf = 1 ↔
      ∃ px py, px < 64 ∧ py < 32 ∧ s.fb.pixel px py = false ∧ spriteBit s x y n px py = true := by
  rw [afterDraw_vf_eq_one_iff, hbit]
  refine exists_congr fun px => exists_congr fun py => and_congr_right fun hx => and_congr_right fun hy =>
    and_congr_left fun hset => ?_
  rw [hfb, afterDraw_pixel s x y n hx hy, hset, Bool.xor_true, Bool.not_eq_true']

end

/-- Settles O23: the state before the second draw has the same sprite and the display of the first. -/
theorem drawingTwiceRestoresTheDisplay : Obligations.DrawingTwiceRestoresTheDisplay := by
  intro s x y n hrange
  refine ⟨_, exec_drw_of_inRange hrange x y, fun u hi hmem hx hy hfb => ?_⟩
  have hbit := spriteBit_congr hi hmem hx hy n
  exact ⟨_, exec_drw_of_inRange (hi ▸ hrange) x y, afterDraw_afterDraw_pixel hbit hfb,
    afterDraw_afterDraw_vf_eq_one_iff hbit hfb⟩

/-- Settles O54: under its premise the sprite has a bit where it has one on a clear pixel, so this is O23. -/
theorem secondDrawCollidesUnlessAllWasSetUnderTheSprite :
    Obligations.SecondDrawCollidesUnlessAllWasSetUnderTheSprite := by
  intro s x y n hrange hagree
  obtain ⟨t, ht, hredraw⟩ := drawingTwiceRestoresTheDisplay s x y n hrange
  refine ⟨t, ht, fun u hi hmem hx hy hfb => ?_⟩
  obtain ⟨w, hw, hpixel, hvf⟩ := hredraw u hi hmem hx hy hfb
  refine ⟨w, hw, hpixel, hvf.trans ⟨?_, ?_⟩⟩
  · rintro ⟨px, py, hx, hy, -, hset⟩
    exact ⟨px, py, hx, hy, hset⟩
  · rintro ⟨px, py, hx, hy, hset⟩
    exact hagree.resolve_left fun hnone => absurd hset (Bool.eq_false_iff.mp (hnone px py hx hy))

/-- The reset state with `I` at the first glyph and every pixel set. -/
def litDisplay : State :=
  { State.reset with i := 0x50, fb := Vector.replicate 64 (Vector.replicate 32 true) }

theorem litDisplay_pixel {px py : Nat} (hx : px < 64) (hy : py < 32) : litDisplay.fb.pixel px py = true := by
  simp [litDisplay, Frame.pixel, hx, hy]

/-- Where every pixel is set before the first draw, the second leaves VF other than 1, and R123 (c) as it stands fails
for any sprite that has a bit. -/
theorem not_second_draw_iff_of_all_set {s : State} {x y : Reg} {n : Height}
    (hrange : n.val = 0 ∨ s.i.toNat + (n.val - 1) ≤ 0xFFF) (hf : s.flt = .noFault)
    (hset : ∀ px py, px < 64 → py < 32 → s.fb.pixel px py = true)
    (hbit : ∃ px py, px < 64 ∧ py < 32 ∧ spriteBit s x y n px py = true) :
    ¬ Obligations.SecondDrawCollidesIffTheSpriteHasABit := by
  intro h
  obtain ⟨t, ht, hredraw⟩ := drawingTwiceRestoresTheDisplay s x y n hrange
  have htf : t.flt = .noFault := by cases (exec_drw_of_inRange hrange x y).symm.trans ht; exact hf
  obtain ⟨w, hw, -, hvf⟩ := hredraw { s with fb := t.fb } rfl rfl rfl rfl rfl
  obtain ⟨px, py, hx, hy, hclear, -⟩ := hvf.mp <|
    (h s t { s with fb := t.fb } w x y n ht htf rfl rfl rfl rfl rfl hw).mpr hbit
  exact absurd (hset px py hx hy) (Bool.eq_false_iff.mp hclear)

/-- Refutes O24: on `litDisplay` the top row of the glyph has a bit at (0, 0), and no pixel is clear. -/
theorem not_secondDrawCollidesIffTheSpriteHasABit : ¬ Obligations.SecondDrawCollidesIffTheSpriteHasABit :=
  not_second_draw_iff_of_all_set (s := litDisplay) (x := 0) (y := 1) (n := 1) (by decide) rfl
    (fun _ _ => litDisplay_pixel) ⟨0, 0, by decide⟩

/-! ## A call and its return -/

/-- Settles O28: the entry the call pushed (O27) is the one the return pops (O25). -/
theorem callThenReturnComesBack : Obligations.CallThenReturnComesBack := by
  intro s nnn hroom
  obtain ⟨-, hcall, -⟩ := callPushesTheReturnAddress s nnn
  obtain ⟨t, ht, -, hsp, hentry, -⟩ := hcall hroom
  refine ⟨t, ht, fun u hstack hpointer => ?_⟩
  obtain ⟨-, hret, -⟩ := returnPopsTheStack u
  obtain ⟨w, hw, hback, hpc, -⟩ := hret ⟨s.sp.val, hroom⟩ (by rw [hpointer, hsp])
  refine ⟨w, hw, ?_, Fin.ext hback⟩
  rw [hpc, hstack, hentry, if_pos rfl]

/-! ## A store, then a load or a fetch -/

/-- Settles O42: the load reads at `I` what the store left there (`State.read_withStored`), and both move `I` alike. -/
theorem storeThenLoadRestoresTheRegisters : Obligations.StoreThenLoadRestoresTheRegisters := by
  intro s x v hwf hle
  have hload := exec_ldRegs_of_inRange (x := x)
    (s := { ((s.withStored (s.regsUpTo x)).bumpI x).advance with i := s.i, v := v }) hle
  refine ⟨_, _, exec_stRegs_of_inRange hle, hload, fun k hk => ?_, fun k hk => ?_, rfl⟩
  · have hlen := State.regsUpTo_length s x
    have hkx : k.val ≤ x.val := hk
    have hread := State.read_withStored hwf (bs := s.regsUpTo x) (by omega) (k := k.val) (by omega)
    rw [State.getV_advance, State.getV_bumpI, State.getV_withLoaded, if_pos hk]
    exact (Memory.byte_of_read hread).trans (State.regsUpTo_getD s x k hk)
  · rw [State.getV_advance, State.getV_bumpI, State.getV_withLoaded, if_neg (not_le.mpr hk)]
    rfl

/-- Every byte after a store, in the words of R73. -/
theorem State.byte_withStored {s : State} (hwf : Memory.wf s.mem) {bs : List Byte} {f : Nat → Byte}
    (hf : ∀ k < bs.length, bs.getD k 0 = f k) (a : Nat) :
    Memory.byte (s.withStored bs).mem a = byteAfterStore s bs.length f a := by
  rw [State.withStored, Memory.byte_putAll _ _ _ _ hwf.1, byteAfterStore]
  split
  · next hin => exact hf _ (by omega)
  · rfl

/-- A fetch from the memory that a store left (R73, R101). -/
theorem fetch_of_withStored {s : State} (hwf : Memory.wf s.mem) {bs : List Byte} {f : Nat → Byte}
    (hf : ∀ k < bs.length, bs.getD k 0 = f k) {u : State} (hmem : u.mem = (s.withStored bs).mem)
    (hpc : u.pc.toNat ≤ 0xFFE) : u.fetch = some (wordAfterStore s bs.length f u.pc.toNat) := by
  rw [State.fetch_eq_some hpc, hmem, State.byte_withStored hwf hf, State.byte_withStored hwf hf, wordAfterStore]

/-- The bytes `Fx55` stores, by their place. -/
theorem State.regsUpTo_getD_ofNat {s : State} {x : Reg} {k : Nat} (h : k ≤ x.val) :
    (s.regsUpTo x).getD k 0 = s.getV (Fin.ofNat 16 k) := by
  have hval : (Fin.ofNat 16 k).val = k := Nat.mod_eq_of_lt (by omega)
  have hget := State.regsUpTo_getD s x (Fin.ofNat 16 k) (Fin.le_def.mpr (hval.trans_le h))
  rwa [hval] at hget

/-- The digits `Fx33` stores, by their place. -/
theorem bcdDigits_getD (b : Byte) {k : Nat} (h : k < 3) :
    (bcdDigits b).getD k 0 = BitVec.ofNat 8
      (if k = 0 then b.toNat / 100 else if k = 1 then b.toNat / 10 % 10 else b.toNat % 10) := by
  obtain rfl | rfl | rfl : k = 0 ∨ k = 1 ∨ k = 2 := by omega
  all_goals rfl

/-- Settles O43: the step is the instruction it fetched, and a later fetch reads the memory that instruction left
(`fetch_of_withStored`). -/
theorem storedBytesAreFetchedNext : Obligations.StoredBytesAreFetchedNext := by
  intro s x hwf
  refine ⟨fun hi hle => ?stRegs, fun hi hle => ?ldB⟩
  case stRegs =>
    have hlen := State.regsUpTo_length s x
    refine ⟨_, (step_of_executes hi).trans (exec_stRegs_of_inRange hle), rfl,
      State.bumpI_i_toNat (s := s.withStored _) hle, fun u hmem hpc => ?_⟩
    rw [← hlen]
    exact fetch_of_withStored hwf (fun k hk => State.regsUpTo_getD_ofNat (by omega)) hmem hpc
  case ldB =>
    refine ⟨_, (step_of_executes hi).trans (exec_ldB_of_inRange hle x), rfl, rfl, fun u hmem hpc => ?_⟩
    exact fetch_of_withStored hwf (fun k hk => bcdDigits_getD (s.getV x) hk) hmem hpc

/-! ## Any number of ticks (R241) -/

/-- Settles O50, by induction on the number of ticks, each by `countDown_toNat`. -/
theorem ticksFloorAtZero : Obligations.TicksFloorAtZero := by
  intro n
  induction n with
  | zero => exact fun s => ⟨s, rfl, rfl, rfl⟩
  | succ n ih =>
    intro s
    obtain ⟨t, hrun, hdt, hst⟩ := ih (tickEvent s)
    have hdt' : (tickEvent s).dt.toNat = s.dt.toNat - 1 := countDown_toNat s.dt
    have hst' : (tickEvent s).st.toNat = s.st.toNat - 1 := countDown_toNat s.st
    exact ⟨t, hrun, by omega, by omega⟩

end Sys2Proof.Machine
